-- ==== Sys2Proof/Word.lean ====
section
/-! DEFINITION. The byte, the register index, and the two sizes of the machine (spec R8, R10, R23, R31). -/

namespace Sys2Proof

/-- A byte: every register, memory cell, operand and program counter value (R8, R10, R14, R31). -/
abbrev Byte := BitVec 8

/-- The index of one of the `R = 8` registers (R5, R10). -/
abbrev Reg := Fin 8

/-- `N = 256`, the number of memory cells (R5, R31). -/
abbrev memCells : Nat := 256

/-- `R = 8`, the number of registers (R5, R10). -/
abbrev regCount : Nat := 8

end Sys2Proof
end

