-- ==== Sys2Proof/Config.lean ====
section
/-! DEFINITION. The parameters of spec R5: what an implementation fixes and no program can change. The parameters are
not state (00_scope.md section 8, item 2). Nothing of this machine is a free value (93_implementation_defined.md). -/

namespace Sys2Proof

/-- The flags register: three independent bits, equal, greater, less (R17). -/
structure Flags where
  E : Bool
  G : Bool
  L : Bool
deriving DecidableEq, Repr

/-- `UNKNOWN_OPCODE_POLICY`: what an opcode byte outside the table does (R5, R73). -/
inductive UnknownOpcodePolicy where
  /-- raise `IllegalInstruction` -/
  | fault
  /-- "a one-byte no-op that advances the program counter by 1" -/
  | skip1
deriving DecidableEq, Repr

/-- The entries R5 marks "parameter", each with the default value R5 gives it. -/
structure Config where
  /-- `UNKNOWN_OPCODE_POLICY`. DESIGN CHOICE (D1, log 4). -/
  unknownOpcode : UnknownOpcodePolicy := .fault
  /-- `SP_INDEX`, the register that is the stack pointer. PRESUMED (R12, D4, log 5). -/
  spIndex : Reg := 7
  /-- `FLAGS_RESET`. DESIGN CHOICE (D7, log 6). -/
  flagsReset : Flags := ⟨false, false, false⟩
  /-- `ADD_OPCODE`: absent, or a byte that decodes as an ADD instruction. DESIGN CHOICE (D18, log 8). -/
  addOpcode : Option Byte := none
deriving DecidableEq, Repr

/-- `SP_RESET`, a constant: the stack pointer after reset (R5, R26; C1). -/
def spReset : Byte := 0xF4

/-- `PC_RESET`: the program counter after reset (R5, R26, R141). DEDUCED (D6, log 7). -/
def pcReset : Byte := 0

end Sys2Proof
end

