-- ==== Sys2Proof/Machine/Settings.lean ====
section
/-! DEFINITION. The setting of the parameters that the machine of this model runs with. -/

namespace Sys2Proof.Machine

/-- "The spec's setting" of every parameter of R5: its default values (logs 4, 5, 6, 8, 27). -/
def settings : Config where
  unknownOpcode := .fault
  spIndex := 7
  flagsReset := ⟨false, false, false⟩
  addOpcode := none

end Sys2Proof.Machine
end

