-- ==== Sys2Proof/Syntax.lean ====
section
/-! DEFINITION. The instructions: one constructor of `Instr` per row of spec/opcode_table.json (R56), and the opcodes. -/

namespace Sys2Proof

/-- An instruction with its operand bytes, whole as they stand in memory (R52). A register-index operand is the operand
BYTE: an index of 8 to 255 is a legal encoding whose execution raises `RegisterIndexOutOfRange` (R53, R75; log 3). -/
inductive Instr where
  /-- HLT, R110 -/
  | hlt
  /-- RET, R101 -/
  | ret
  /-- PUSH, R96: operand 1 is the register pushed -/
  | push (r : Byte)
  /-- POP, R97: operand 1 is the register loaded -/
  | pop (r : Byte)
  /-- PRN, R92: operand 1 is the register emitted -/
  | prn (r : Byte)
  /-- CALL, R100: operand 1 is the register that holds the target -/
  | call (r : Byte)
  /-- JMP, R105: operand 1 is the register that holds the target -/
  | jmp (r : Byte)
  /-- JEQ, R106: operand 1 is the register that holds the target -/
  | jeq (r : Byte)
  /-- JNE, R107: operand 1 is the register that holds the target -/
  | jne (r : Byte)
  /-- LDI, R90: operand 1 is the destination register, operand 2 the literal -/
  | ldi (d v : Byte)
  /-- MULT, R87: operands 1 and 2 are the factors' registers, operand 1 the destination too -/
  | mult (a b : Byte)
  /-- CMP, R88: operands 1 and 2 are the registers compared -/
  | cmp (a b : Byte)
deriving DecidableEq, Repr

/-- The twelve opcodes of R56. -/
inductive Opcode where
  | hlt | ret | push | pop | prn | call | jmp | jeq | jne | ldi | mult | cmp
deriving DecidableEq, Repr

/-- The opcode of an instruction. -/
def Instr.opcode : Instr → Opcode
  | .hlt => .hlt
  | .ret => .ret
  | .push _ => .push
  | .pop _ => .pop
  | .prn _ => .prn
  | .call _ => .call
  | .jmp _ => .jmp
  | .jeq _ => .jeq
  | .jne _ => .jne
  | .ldi _ _ => .ldi
  | .mult _ _ => .mult
  | .cmp _ _ => .cmp

/-- The operand bytes of an instruction, `o1` first (R52). -/
def Instr.operands : Instr → List Byte
  | .hlt => []
  | .ret => []
  | .push r => [r]
  | .pop r => [r]
  | .prn r => [r]
  | .call r => [r]
  | .jmp r => [r]
  | .jeq r => [r]
  | .jne r => [r]
  | .ldi d v => [d, v]
  | .mult a b => [a, b]
  | .cmp a b => [a, b]

end Sys2Proof
end

