-- ==== Sys2Proof/Machine/State.lean ====
section
/-! DEFINITION. Everything the machine holds (10_state.md), the ways a step can end, and the state after reset. -/

namespace Sys2Proof.Machine

/-- The seven faults of R120. A fault is identified by its name alone: no code, no recorded value (R130, log 21). -/
inductive FaultName where
  /-- the opcode byte is none of the twelve, under the policy `fault` (R121) -/
  | illegalInstruction
  /-- an operand address, a sequential next pc or a return address is 256 or more (R122) -/
  | addressOutOfRange
  /-- a register-index operand is 8 or more (R123) -/
  | registerIndexOutOfRange
  /-- a decrement of a stack pointer that holds 0 (R124) -/
  | stackOverflow
  /-- an increment of a stack pointer that holds 255 (R125) -/
  | stackUnderflow
  /-- an ALU operation name outside ADD, MULT, CMP; no instruction reaches it (R126) -/
  | unsupportedOperation
  /-- the program is longer than memory; raised by the load only (R128) -/
  | programTooLarge
deriving DecidableEq, Repr

/-- The run status, the only control state (R20). -/
inductive Status where
  /-- the loop fetches and executes -/
  | running
  /-- a HLT executed (R111) -/
  | halted
  /-- the host cancelled the run between two instructions (R146) -/
  | stopped
  /-- an instruction or the load raised `f` (R127) -/
  | faulted (f : FaultName)
deriving DecidableEq, Repr

/-- Why there is no step at all. "A step exists only when `status = Running`" (R70); the spec's treatment of a run that
has ended is `stuck`, no step (93_implementation_defined.md U19). The faults of R120 are not here: raising one is a step,
to a state whose status is `faulted` (R127, log 1). -/
inductive Fault where
  /-- Raised by `step` alone, on a state whose status is `halted` (R111). Safe: the spec has no step there. -/
  | runHalted
  /-- Raised by `step` alone, on a state whose status is `stopped` (R146). Safe: the spec has no step there. -/
  | runStopped
  /-- Raised by `step` alone, on a state whose status is `faulted f` (R127, R131). Safe: the spec has no step there. -/
  | runFaulted (f : FaultName)
deriving DecidableEq, Repr

/-- Why the model gives an instruction no meaning. -/
inductive Refusal where
  /-- Raised by an arm of `exec` whose instruction has no meaning yet; no arm of this model answers it. Safe. -/
  | notModelled (mnemonic : String)
deriving DecidableEq, Repr

/-- The memory: the listed (address, byte) pairs, every other address reading 0. Its canonical form is `Memory.wf` of
Machine/Ops.lean (R23, R31; log 20). -/
abbrev Memory := List Host.Cell

/-- Every piece of state of 10_state.md, and nothing else (R21, R24). -/
structure State where
  /-- the register file `x[0]` to `x[7]` (R10); the stack pointer is one of them (R12) -/
  regs : Vector Byte 8
  /-- the program counter (R14) -/
  pc : Byte
  /-- the flags E, G, L (R17) -/
  flags : Flags
  /-- the run status (R20) -/
  status : Status
  /-- the 256 memory cells (R23) -/
  mem : Memory
  /-- the bytes emitted by PRN since reset, oldest first; a record of the output interface, not hardware (R22, log 15) -/
  out : List Byte
deriving DecidableEq, Repr

/-- The state after reset at a setting of the parameters (R26, R140). -/
def State.resetWith (c : Config) : State where
  regs := (Vector.replicate 8 0).set c.spIndex spReset
  pc := pcReset
  flags := c.flagsReset
  status := .running
  mem := []
  out := []

/-- The state after reset (R26, R140). -/
def State.reset : State := State.resetWith settings

/-- What one instruction, or one step, answers. -/
abbrev Result := Host.Outcome State Fault Refusal

end Sys2Proof.Machine
end

