-- ==== Sys2Proof/Machine/Ops.lean ====
section
/-! DEFINITION. Memory, the register file, the program counter, the output, and raising a fault. -/

namespace Sys2Proof.Machine

/-! ## Memory (R23, R31, R33) -/

/-- The byte in cell `a`: the listed one, or 0, the reset contents (R23, R33). -/
def Memory.read : Memory → Nat → Byte
  | [], _ => 0
  | (b, w) :: m, a => if a = b then w else Memory.read m a

/-- Put `v` at `a` before the first listed address above `a`. -/
def Memory.insert (a : Nat) (v : Byte) : Memory → Memory
  | [] => [(a, v)]
  | (b, w) :: m => if a < b then (a, v) :: (b, w) :: m else (b, w) :: Memory.insert a v m

/-- Unlist the address `a`, so that it reads 0. -/
def Memory.erase (m : Memory) (a : Nat) : Memory := m.filter (fun c => c.1 != a)

/-- Set cell `a` to `v`, keeping the canonical form: a cell that holds 0 is not listed. -/
def Memory.write (m : Memory) (a : Nat) (v : Byte) : Memory :=
  if v = 0 then m.erase a else (m.erase a).insert a v

/-- Write `vs` to the cells `a`, `a + 1`, and so on, in order (R40). -/
def Memory.writeAll : Memory → Nat → List Byte → Memory
  | m, _, [] => m
  | m, a, v :: vs => Memory.writeAll (m.write a v) (a + 1) vs

/-- The canonical form: addresses below 256 and strictly rising, no listed byte 0 (log 20). -/
def Memory.wf (m : Memory) : Bool :=
  m.all (fun c => decide (c.1 < memCells) && c.2 != 0) && decide (m.Pairwise (fun c d => c.1 < d.1))

/-- `MemRead(a, 1)` at a byte address, which is always in range (R31, R33). -/
def State.memRead (s : State) (a : Byte) : Byte := s.mem.read a.toNat

/-- `MemWrite(a, 1, v)` at a byte address, which is always in range (R31). -/
def State.memWrite (s : State) (a v : Byte) : State := { s with mem := s.mem.write a.toNat v }

/-! ## Registers (R10 to R13), program counter (R14), status (R20), output (R93) -/

/-- `x[r]`. No register is hardwired or banked (R13). -/
def State.reg (s : State) (r : Reg) : Byte := s.regs[r]

/-- `x[r] <- v`. -/
def State.setReg (s : State) (r : Reg) (v : Byte) : State := { s with regs := s.regs.set r v }

/-- `SP`, the register `x[SP_INDEX]` (R12). -/
def State.sp (c : Config) (s : State) : Byte := s.reg c.spIndex

/-- `SP <- v`: the same storage as `x[SP_INDEX]` (R12). -/
def State.setSp (c : Config) (v : Byte) (s : State) : State := s.setReg c.spIndex v

/-- `pc <- t`. -/
def State.setPc (s : State) (t : Byte) : State := { s with pc := t }

/-- Write all three flags at once (R18). -/
def State.setFlags (s : State) (f : Flags) : State := { s with flags := f }

/-- `status <- u`. -/
def State.setStatus (s : State) (u : Status) : State := { s with status := u }

/-- `Emit(v)`: append to the output trace (R93). It cannot fail or block. -/
def State.emit (s : State) (v : Byte) : State := { s with out := s.out ++ [v] }

/-! ## Faults (R127) -/

/-- Fault entry: "no register, flag, memory cell or pc changes; nothing is emitted; `status <- Faulted(F)`" (R127, R77).
There is no return from a fault (R131): only a reset leaves the status. -/
def raise (f : FaultName) (s : State) : Result := .next (s.setStatus (.faulted f))

/-- A value that checks stand before: the first check that fails names its fault (R77, R79). -/
abbrev Checked (α : Type) := Except FaultName α

/-- A step is all or nothing (R77): the new state when every check passed, else fault entry on the old one. -/
def commit (s : State) : Checked State → Result
  | .ok t => .next t
  | .error f => raise f s

end Sys2Proof.Machine
end

