-- ==== Sys2Proof/Machine/Flags.lean ====
section
/-! DEFINITION. The flags that a comparison leaves (R83, R89), and their packed form (R17). -/

namespace Sys2Proof.Machine

/-- The flag outcomes of CMP on the unsigned values `va` and `vb` (R83, R86, R89). DESIGN CHOICE (D9, log 13). -/
def compareFlags (va vb : Byte) : Flags where
  E := va == vb
  G := decide (vb.toNat < va.toNat)
  L := decide (va.toNat < vb.toNat)

end Sys2Proof.Machine

namespace Sys2Proof

/-- At most one flag is set (R19). -/
def Flags.atMostOne (f : Flags) : Bool := !(f.E && f.G) && !(f.E && f.L) && !(f.G && f.L)

/-- Exactly one flag is set: what holds after any CMP (R19). -/
def Flags.exactlyOne (f : Flags) : Bool := f.atMostOne && (f.E || f.G || f.L)

/-- The packed form `0b00000LGE`, which no program can observe (R17). PRESUMED (D7, log 14). -/
def Flags.pack (f : Flags) : Byte := (if f.L then 4 else 0) + (if f.G then 2 else 0) + (if f.E then 1 else 0)

end Sys2Proof
end

