-- ==== Sys2Proof/Machine/Operands.lean ====
section
/-! DEFINITION. The checks of an instruction: register indices, the next program counter, the stack bounds. -/

namespace Sys2Proof.Machine

/-- `RegIdx(i)`: the whole byte is the index; 8 or more is a fault, never masked (R53, R75). -/
def regIdx (i : Byte) : Checked Reg :=
  if h : i.toNat < 8 then .ok ⟨i.toNat, h⟩ else .error .registerIndexOutOfRange

/-- The check and the value of `Advance(w)`: `pc + w` as an integer, a fault at 256 or more, never wrapped (R16, R76). -/
def nextPc (w : Nat) (s : State) : Checked Byte :=
  if s.pc.toNat + w < memCells then .ok (BitVec.ofNat 8 (s.pc.toNat + w)) else .error .addressOutOfRange

/-- `SP <- SP - 1` before a push; `StackOverflow` when `SP` holds 0 (R95, R98). -/
def decrementSp (c : Config) (s : State) : Checked State :=
  if s.sp c = 0 then .error .stackOverflow else .ok (s.setSp c (s.sp c - 1))

/-- `SP <- SP + 1` after a pop; `StackUnderflow` when `SP` holds 255 at that moment (R95, R98, R125). -/
def incrementSp (c : Config) (s : State) : Checked State :=
  if s.sp c = 255 then .error .stackUnderflow else .ok (s.setSp c (s.sp c + 1))

/-- The byte a pop reads: the cell `SP` addresses (R46, R95). -/
def stackTop (c : Config) (s : State) : Byte := s.memRead (s.sp c)

/-- Where the next push writes: the cell `SP - 1` (R32, R95). -/
def pushAddress (c : Config) (s : State) : Byte := s.sp c - 1

end Sys2Proof.Machine
end

