-- ==== Sys2Proof/Machine/Alu.lean ====
section
/-! DEFINITION. The ALU (R80 to R86) and the instructions MULT and CMP (R87, R88), with the optional ADD form (D18). -/

namespace Sys2Proof.Machine

/-- The operation select of the ALU: its three operations, and every other operation name (R80, R84; log 22). -/
inductive AluOp where
  | add
  | mult
  | cmp
  /-- any operation name outside ADD, MULT, CMP (R84) -/
  | unsupported
deriving DecidableEq, Repr

/-- `(va + vb) mod 256` (R81, R85). -/
def addBytes (va vb : Byte) : Byte := BitVec.ofNat 8 (va.toNat + vb.toNat)

/-- `(va * vb) mod 256` (R82, R85). -/
def multBytes (va vb : Byte) : Byte := BitVec.ofNat 8 (va.toNat * vb.toNat)

/-- `ALU(ADD, a, b)`: the sum replaces `x[a]`, flags unaffected (R81). -/
def aluAdd (a b : Reg) (s : State) : State := s.setReg a (addBytes (s.reg a) (s.reg b))

/-- `ALU(MULT, a, b)`: returns the product and writes nothing (R82). -/
def aluMult (a b : Reg) (s : State) : Byte := multBytes (s.reg a) (s.reg b)

/-- `ALU(CMP, a, b)`: writes the three flags and no register (R83). -/
def aluCmp (a b : Reg) (s : State) : State := s.setFlags (compareFlags (s.reg a) (s.reg b))

/-- The ALU as a unit: the state it leaves and the value it hands back, if any (R80), or `UnsupportedOperation` (R84). -/
def alu (op : AluOp) (a b : Reg) (s : State) : Checked (State × Option Byte) :=
  match op with
  | .add => .ok (aluAdd a b s, none)
  | .mult => .ok (s, some (aluMult a b s))
  | .cmp => .ok (aluCmp a b s, none)
  | .unsupported => .error .unsupportedOperation

/-- MULT, R87: the product goes to the register of operand 1. DESIGN CHOICE (D24, log 13). -/
def execMult (a b : Byte) (s : State) : Result :=
  commit s do
    let ra ← regIdx a
    let rb ← regIdx b
    let t ← nextPc 3 s
    return (s.setReg ra (aluMult ra rb s)).setPc t

/-- CMP, R88. -/
def execCmp (a b : Byte) (s : State) : Result :=
  commit s do
    let ra ← regIdx a
    let rb ← regIdx b
    let t ← nextPc 3 s
    return (aluCmp ra rb s).setPc t

/-- The instruction `ADD_OPCODE, a, b`, when that parameter is present: MULT's pseudocode with `ALU(ADD, a, b)` in place of
the product line (92_eei_decisions.md D18; log 8). It is no row of the opcode table, hence no constructor of `Instr`. -/
def execAddForm (a b : Byte) (s : State) : Result :=
  commit s do
    let ra ← regIdx a
    let rb ← regIdx b
    let t ← nextPc 3 s
    return (aluAdd ra rb s).setPc t

end Sys2Proof.Machine
end

