-- ==== Sys2Proof/Machine/CallRet.lean ====
section
/-! DEFINITION. CALL and RET (44_call_ret.md), at any setting of the parameters and at the machine's. -/

namespace Sys2Proof.Machine

/-- CALL, R100: push `pc + 2`, then take the target from `x[r]`, read after the push. DESIGN CHOICE (D13, log 11). -/
def execCallWith (c : Config) (r : Byte) (s : State) : Result :=
  commit s do
    let rr ← regIdx r
    let s₁ ← decrementSp c s
    let ra ← nextPc 2 s
    let s₂ := s₁.memWrite (s₁.sp c) ra
    return s₂.setPc (s₂.reg rr)

/-- RET, R101: "pop the top stack value into the program counter". The corrected contract only (D2, C4). -/
def execRetWith (c : Config) (s : State) : Result :=
  commit s do
    let v := stackTop c s
    let s₁ ← incrementSp c s
    return s₁.setPc v

/-- CALL at the machine's settings. -/
def execCall (r : Byte) (s : State) : Result := execCallWith settings r s

/-- RET at the machine's settings. -/
def execRet (s : State) : Result := execRetWith settings s

end Sys2Proof.Machine
end

