-- ==== Sys2Proof/Machine/Halt.lean ====
section
/-! DEFINITION. HLT (46_halt.md). -/

namespace Sys2Proof.Machine

/-- HLT, R110: advance by 1, then `status <- Halted`; at address 255 the advance faults (D6, C8, log 7). -/
def execHlt (s : State) : Result :=
  commit s do
    let t ← nextPc 1 s
    return (s.setPc t).setStatus .halted

end Sys2Proof.Machine
end

