-- ==== Sys2Proof/Machine/Jumps.lean ====
section
/-! DEFINITION. JMP, JEQ and JNE (45_jumps.md). -/

namespace Sys2Proof.Machine

/-- Jump to `x[r]` when `taken`, else fall through to `pc + 2`; the index is checked either way (R75, R106, R107). -/
def jumpIf (taken : Bool) (r : Byte) (s : State) : Result :=
  commit s do
    let rr ← regIdx r
    if taken then
      return s.setPc (s.reg rr)
    else
      let t ← nextPc 2 s
      return s.setPc t

/-- JMP, R105: `pc + 2` is never computed. -/
def execJmp (r : Byte) (s : State) : Result := jumpIf true r s

/-- JEQ, R106: jumps when E is set. -/
def execJeq (r : Byte) (s : State) : Result := jumpIf s.flags.E r s

/-- JNE, R107: jumps when E is clear. -/
def execJne (r : Byte) (s : State) : Result := jumpIf (!s.flags.E) r s

end Sys2Proof.Machine
end

