-- ==== Sys2Proof/Machine/LoadPrint.lean ====
section
/-! DEFINITION. LDI and PRN (42_ldi_prn.md). -/

namespace Sys2Proof.Machine

/-- LDI, R90: the literal is written unchanged and never checked. -/
def execLdi (d v : Byte) (s : State) : Result :=
  commit s do
    let rd ← regIdx d
    let t ← nextPc 3 s
    return (s.setReg rd v).setPc t

/-- PRN, R92: hand `x[r]` to the output interface. -/
def execPrn (r : Byte) (s : State) : Result :=
  commit s do
    let rr ← regIdx r
    let t ← nextPc 2 s
    return (s.emit (s.reg rr)).setPc t

end Sys2Proof.Machine
end

