-- ==== Sys2Proof/Machine/Stack.lean ====
section
/-! DEFINITION. PUSH and POP (43_stack.md), at any setting of the parameters and at the machine's. -/

namespace Sys2Proof.Machine

/-- PUSH, R96: decrement the pointer, then write `x[r]`, read after the decrement. DESIGN CHOICE (D13, log 11). -/
def execPushWith (c : Config) (r : Byte) (s : State) : Result :=
  commit s do
    let rr ← regIdx r
    let s₁ ← decrementSp c s
    let t ← nextPc 2 s
    return (s₁.memWrite (s₁.sp c) (s₁.reg rr)).setPc t

/-- POP, R97: load `x[r]`, then increment the pointer; when `x[r]` is the pointer it is the loaded byte that is
incremented. DESIGN CHOICE (D13, log 11). -/
def execPopWith (c : Config) (r : Byte) (s : State) : Result :=
  commit s do
    let rr ← regIdx r
    let s₁ ← incrementSp c (s.setReg rr (stackTop c s))
    let t ← nextPc 2 s
    return s₁.setPc t

/-- PUSH at the machine's settings. -/
def execPush (r : Byte) (s : State) : Result := execPushWith settings r s

/-- POP at the machine's settings. -/
def execPop (r : Byte) (s : State) : Result := execPopWith settings r s

end Sys2Proof.Machine
end

