-- ==== Sys2Proof/WellFormed.lean ====
section
/-! DEFINITION. When an instruction's register operands name registers (R53). An ill-formed instruction still decodes
and still executes: it raises `RegisterIndexOutOfRange` (R75, R123). -/

namespace Sys2Proof

/-- "`i` in 0 to 7 names `x[i]`. `i` in 8 to 255 names no register" (R53). -/
def isRegIndex (b : Byte) : Bool := b.toNat < regCount

/-- Every register-index operand is 0 to 7; LDI's literal is never checked (R53, R123). -/
def Instr.wellFormed : Instr → Bool
  | .hlt => true
  | .ret => true
  | .push r => isRegIndex r
  | .pop r => isRegIndex r
  | .prn r => isRegIndex r
  | .call r => isRegIndex r
  | .jmp r => isRegIndex r
  | .jeq r => isRegIndex r
  | .jne r => isRegIndex r
  | .ldi d _ => isRegIndex d
  | .mult a b => isRegIndex a && isRegIndex b
  | .cmp a b => isRegIndex a && isRegIndex b

end Sys2Proof
end

