-- ==== Sys2Proof/Decode.lean ====
section
/-! DEFINITION. Decoding and encoding (30_encoding.md R50 to R59, 40_fetch_decode.md R72, R74). -/

namespace Sys2Proof

/-- The "value (decimal)" column of R56. -/
def Opcode.value : Opcode → Byte
  | .hlt => 1
  | .ret => 17
  | .push => 69
  | .pop => 70
  | .prn => 71
  | .call => 80
  | .jmp => 84
  | .jeq => 85
  | .jne => 86
  | .ldi => 130
  | .mult => 162
  | .cmp => 167

/-- The "width (bytes)" column of R56. -/
def Opcode.width : Opcode → Nat
  | .hlt => 1
  | .ret => 1
  | .push => 2
  | .pop => 2
  | .prn => 2
  | .call => 2
  | .jmp => 2
  | .jeq => 2
  | .jne => 2
  | .ldi => 3
  | .mult => 3
  | .cmp => 3

/-- The rows of R56, in its order. -/
def Opcode.rows : List Opcode :=
  [.hlt, .ret, .push, .pop, .prn, .call, .jmp, .jeq, .jne, .ldi, .mult, .cmp]

/-- "An exact match of the whole opcode byte against the Value column" (R55, R72). -/
def opcodeOf (op : Byte) : Option Opcode := Opcode.rows.find? (fun o => o.value == op)

/-- Why bytes do not decode. -/
inductive Reject where
  /-- there is no byte at all -/
  | noByte
  /-- the opcode byte is none of the twelve (R57) -/
  | unknownOpcode (op : Byte)
  /-- the bytes end before the instruction's operands do (R74) -/
  | operandMissing
deriving DecidableEq, Repr

/-- What decoding answers: an instruction with the bytes after it, or a rejection by name. -/
abbrev DecodeResult := Except Reject (Instr × List Byte)

/-- Format F1: one operand byte after the opcode (R51). -/
def oneOperand (f : Byte → Instr) : List Byte → DecodeResult
  | o1 :: rest => .ok (f o1, rest)
  | [] => .error .operandMissing

/-- Format F2: two operand bytes after the opcode (R51). -/
def twoOperands (f : Byte → Byte → Instr) : List Byte → DecodeResult
  | o1 :: o2 :: rest => .ok (f o1 o2, rest)
  | _ => .error .operandMissing

/-- The operands of a known opcode, from the bytes after it (R51, R52). -/
def decodeOperands (k : Opcode) (bytes : List Byte) : DecodeResult :=
  match k with
  | .hlt => .ok (.hlt, bytes)
  | .ret => .ok (.ret, bytes)
  | .push => oneOperand .push bytes
  | .pop => oneOperand .pop bytes
  | .prn => oneOperand .prn bytes
  | .call => oneOperand .call bytes
  | .jmp => oneOperand .jmp bytes
  | .jeq => oneOperand .jeq bytes
  | .jne => oneOperand .jne bytes
  | .ldi => twoOperands .ldi bytes
  | .mult => twoOperands .mult bytes
  | .cmp => twoOperands .cmp bytes

/-- Decode the instruction at the head of `bytes`, which stand in memory order: opcode, operand 1, operand 2
(R34, R72, R74). The length follows from the opcode byte alone (R54). -/
def decode : List Byte → DecodeResult
  | [] => .error .noByte
  | op :: bytes =>
    match opcodeOf op with
    | none => .error (.unknownOpcode op)
    | some k => decodeOperands k bytes

/-- The bytes of an instruction in memory order (R50, R51, R56). -/
def encode (i : Instr) : List Byte := i.opcode.value :: i.operands

/-- Byte `k` of a word whose bit 0 is the least significant bit of the first byte. -/
def byteOfWord (w k : Nat) : Byte := BitVec.ofNat 8 (w >>> (8 * k))

/-- The first three bytes, `MAXW` of R5, of the instruction whose `nbits` bits are `w`, the bits above them zero. -/
def tableWordBytes (nbits w : Nat) : List Byte :=
  [byteOfWord (w % 2 ^ nbits) 0, byteOfWord (w % 2 ^ nbits) 1, byteOfWord (w % 2 ^ nbits) 2]

/-- The instruction that `decode` reads from a word numbered as spec/opcode_table.json numbers it. -/
def decodeTableWord (nbits w : Nat) : Option Instr :=
  match decode (tableWordBytes nbits w) with
  | .ok (i, _) => some i
  | .error _ => none

end Sys2Proof
end

