-- ==== Sys2Proof/Machine/Fetch.lean ====
section
/-! DEFINITION. Fetching and decoding at the program counter (R70 to R74), for any setting of the parameters. -/

namespace Sys2Proof.Machine

/-- The byte at `pc + k`, when that address exists (R37, R74). -/
def fetchByte (s : State) (k : Nat) : Option Byte :=
  if s.pc.toNat + k < memCells then some (s.mem.read (s.pc.toNat + k)) else none

/-- The bytes at `pc`, `pc + 1` and `pc + 2`, as far as memory reaches; read afresh in every step (R71, R74). Reading a
cell has no side effect (R33), so a byte that the decoder does not use is as if unread (R59; log 23). -/
def fetchBytes (s : State) : List Byte := [0, 1, 2].filterMap (fetchByte s)

/-- What stands at the program counter. -/
inductive Fetched where
  /-- one of the twelve instructions -/
  | instr (i : Instr)
  /-- the instruction of the parameter `ADD_OPCODE` (D18) -/
  | addForm (a b : Byte)
  /-- no instruction -/
  | rejected (r : Reject)
deriving DecidableEq, Repr

/-- Decode at a setting of the parameters: the table of R56 first, then `ADD_OPCODE` if it is present (D18). -/
def decodeWith (c : Config) (bytes : List Byte) : Fetched :=
  match decode bytes with
  | .ok (i, _) => .instr i
  | .error (.unknownOpcode op) =>
    if c.addOpcode = some op then
      match bytes with
      | _ :: a :: b :: _ => .addForm a b
      | _ => .rejected .operandMissing
    else .rejected (.unknownOpcode op)
  | .error r => .rejected r

/-- An opcode byte outside the table (R73, R121): the policy of the machine. -/
def unknownOpcode (p : UnknownOpcodePolicy) (s : State) : Result :=
  match p with
  | .fault => raise .illegalInstruction s
  | .skip1 => commit s do
      let t ← nextPc 1 s
      return s.setPc t

/-- What a rejection by the decoder does: a missing operand byte lies at address 256 or 257 (R74). -/
def execRejected (c : Config) (r : Reject) (s : State) : Result :=
  match r with
  | .noByte => raise .addressOutOfRange s
  | .unknownOpcode _ => unknownOpcode c.unknownOpcode s
  | .operandMissing => raise .addressOutOfRange s

/-- Fetch, decode, execute (R70 to R74), the twelve handlers being `ex`. -/
def cycle (c : Config) (ex : Instr → State → Result) (s : State) : Result :=
  match decodeWith c (fetchBytes s) with
  | .instr i => ex i s
  | .addForm a b => execAddForm a b s
  | .rejected r => execRejected c r s

/-- "A step exists only when `status = Running`" (R70, R111, R131; U19; log 2). -/
def whenRunning (s : State) (r : Result) : Result :=
  match s.status with
  | .running => r
  | .halted => .fault .runHalted
  | .stopped => .fault .runStopped
  | .faulted f => .fault (.runFaulted f)

/-- The handlers at any setting of the parameters; only the stack instructions depend on it (`SP_INDEX`, R12). -/
def execWith (c : Config) (i : Instr) (s : State) : Result :=
  match i with
  | .hlt => execHlt s
  | .ret => execRetWith c s
  | .push r => execPushWith c r s
  | .pop r => execPopWith c r s
  | .prn r => execPrn r s
  | .call r => execCallWith c r s
  | .jmp r => execJmp r s
  | .jeq r => execJeq r s
  | .jne r => execJne r s
  | .ldi d v => execLdi d v s
  | .mult a b => execMult a b s
  | .cmp a b => execCmp a b s

/-- One step of the machine at any setting of the parameters (R5, R70; log 27). -/
def stepWith (c : Config) (s : State) : Result := whenRunning s (cycle c (execWith c) s)

/-- Store `bytes` at the program counter, as far as memory reaches. -/
def State.storeAtPc (s : State) (bytes : List Byte) : State :=
  { s with mem := s.mem.writeAll s.pc.toNat (bytes.take (memCells - s.pc.toNat)) }

end Sys2Proof.Machine
end

