-- ==== Sys2Proof/Machine/Step.lean ====
section
/-! DEFINITION. One step of the machine (R70), and placing the next instruction. -/

namespace Sys2Proof.Machine

/-- One step: fetch, decode, execute one instruction, when the run has not ended (R70). -/
def step (s : State) : Host.Outcome State Fault Refusal := whenRunning s (cycle settings exec s)

/-- `s` with the instruction whose `nbits` bits are `w` stored at the program counter, where `step` fetches (log 19). -/
def State.withFetchWord (s : State) (nbits w : Nat) : State := s.storeAtPc (tableWordBytes nbits w)

end Sys2Proof.Machine
end

