-- ==== Sys2Proof/Machine/HostActions.lean ====
section
/-! DEFINITION. What the host does to the machine outside a step (R6, R142, R147): reset, load, stop, and the run under
fuel. -/

namespace Sys2Proof.Machine

/-- Reset: "Nothing survives a reset" (R140); from any state (R20). -/
def resetAction (c : Config) (_ : State) : State := State.resetWith c

/-- The program load: `mem[i] <- prog[i]` from address 0 on, or `ProgramTooLarge` with memory untouched (R40, R41). The
host does it once, after reset and before the run (R142, R147; log 16). -/
def load (prog : List Byte) (s : State) : State :=
  if prog.length ≤ memCells then { s with mem := s.mem.writeAll 0 prog }
  else s.setStatus (.faulted .programTooLarge)

/-- `Launch(prog)`: reset, then load (R142, R144). -/
def launchWith (c : Config) (prog : List Byte) : State := load prog (State.resetWith c)

/-- `Launch(prog)` of the machine (R144). -/
def launch (prog : List Byte) : State := launchWith settings prog

/-- The host's stop between two steps (R146); a run that has ended stays as it ended (R20; log 17). -/
def hostStop (s : State) : State :=
  match s.status with
  | .running => s.setStatus .stopped
  | .halted => s
  | .stopped => s
  | .faulted _ => s

/-- The run loop under fuel: at most `k` steps, ending when the status leaves Running (R78, R156). -/
def runWith (c : Config) : Nat → State → State
  | 0, s => s
  | k + 1, s =>
    match stepWith c s with
    | .next t => runWith c k t
    | .fault _ => s
    | .refused _ => s

/-- A run with the host's cycle limit `k`: at most `k` steps, then the host stops it (R146). -/
def runLimited (c : Config) (k : Nat) (s : State) : State := hostStop (runWith c k s)

end Sys2Proof.Machine
end

