-- ==== Sys2Proof/Safety.lean ====
section
/-! DEFINITION. The terms that claims about the machine are stated in: the invariant of the state, how a run ends, and
which fault an instruction reports. -/

namespace Sys2Proof.Machine

/-- What the types do not give: at most one flag is set (R27's clause c), and the memory is in its canonical form, which
is no rule of the spec but the model's own. DESIGN CHOICE (log 20). -/
def State.inv (s : State) : Bool := s.mem.wf && s.flags.atMostOne

/-- "Only `Halted` is a normal completion" (R145, R111). -/
def State.completed (s : State) : Bool := s.status = .halted

/-- The run has ended: the status is not Running (R20, R145). -/
def State.ended (s : State) : Bool := s.status != .running

/-- The "registers read" column of R11 at the machine's `SP_INDEX`: does `i`, with the flags `f`, read `x[k]`? -/
def registerRead (i : Instr) (f : Flags) (k : Reg) : Bool :=
  match i with
  | .hlt => false
  | .ret => k == 7
  | .push r => r.toNat == k.val || k == 7
  | .pop _ => k == 7
  | .prn r => r.toNat == k.val
  | .call r => r.toNat == k.val || k == 7
  | .jmp r => r.toNat == k.val
  | .jeq r => f.E && r.toNat == k.val
  | .jne r => !f.E && r.toNat == k.val
  | .ldi _ _ => false
  | .mult a b => a.toNat == k.val || b.toNat == k.val
  | .cmp a b => a.toNat == k.val || b.toNat == k.val

/-- The fault that the instruction at the program counter reports, or none: the order of R79 and R129 over the
conditions of R121 to R125, written on the bytes of memory alone, for the policy `fault` and no ADD opcode. -/
def faultReported (c : Config) (s : State) : Option FaultName :=
  let pc := s.pc.toNat
  let op := (s.mem.read pc).toNat
  let o1 := (s.mem.read (pc + 1)).toNat
  let o2 := (s.mem.read (pc + 2)).toNat
  let sp := (s.sp c).toNat
  if op ∉ [1, 17, 69, 70, 71, 80, 84, 85, 86, 130, 162, 167] then some .illegalInstruction
  else if (op ∈ [69, 70, 71, 80, 84, 85, 86] ∧ pc = 255) ∨ (op ∈ [130, 162, 167] ∧ 254 ≤ pc) then some .addressOutOfRange
  else if (op ∉ [1, 17] ∧ 8 ≤ o1) ∨ (op ∈ [162, 167] ∧ 8 ≤ o2) then some .registerIndexOutOfRange
  else if op ∈ [69, 80] ∧ sp = 0 then some .stackOverflow
  else if op = 17 ∧ sp = 255 then some .stackUnderflow
  else if op = 70 ∧ (if o1 = c.spIndex.val then (s.mem.read sp).toNat else sp) = 255 then some .stackUnderflow
  else if op = 1 ∧ pc = 255 then some .addressOutOfRange
  else if op ∈ [69, 70, 71, 80] ∧ pc = 254 then some .addressOutOfRange
  else if (op = 85 ∧ s.flags.E = false ∧ pc = 254) ∨ (op = 86 ∧ s.flags.E = true ∧ pc = 254) then some .addressOutOfRange
  else if op ∈ [130, 162, 167] ∧ pc = 253 then some .addressOutOfRange
  else none

end Sys2Proof.Machine
end

