-- ==== Sys2Proof/Certificates/Slice0/Obligations.lean ====
section
/-! DEFINITION. The statements about the machine, each with the rules of spec/ it rests on. `exec` is one instruction,
`step` one fetch-decode-execute; a raised fault is a next state whose status is `faulted` (R127, log 1). -/

open Sys2Proof Sys2Proof.Machine

/-! ## Reset and the invariant -/

/-- R26, R140: every piece of state after reset, at the machine's settings and at every other. That the stack pointer is
register 7 (D4, log 5), pc 0 (D6, log 7), the clear flags (D7, log 6) and Running (D17, log 18) are the spec's decisions. -/
def Obligations.ResetStateIsAsSpecified : Prop :=
  (∀ r : Reg, State.reset.reg r = if r = 7 then 0xF4 else 0) ∧ State.reset.pc = 0 ∧
  State.reset.flags = ⟨false, false, false⟩ ∧ State.reset.status = .running ∧ State.reset.out = [] ∧
  (∀ a : Nat, State.reset.mem.read a = 0) ∧
  ∀ (c : Config) (s : State), let z := resetAction c s
    (∀ r : Reg, z.reg r = if r = c.spIndex then 0xF4 else 0) ∧ z.pc = 0 ∧ z.flags = c.flagsReset ∧
    z.status = .running ∧ z.out = [] ∧ ∀ a : Nat, z.mem.read a = 0

/-- The state after reset has the invariant: at most one flag set (R27), and the memory in the canonical form, which the
spec does not name and is the model's choice (log 20). -/
def Obligations.ResetHasInvariant : Prop := State.reset.inv = true

/-- Every step keeps the invariant, from every state, at the machine's settings and at every other: at most one flag set
(R27), and the memory in the canonical form, which is the model's choice (log 20) and no rule of the spec. -/
def Obligations.EveryStepKeepsInvariant : Prop :=
  (∀ s t : State, s.inv = true → step s = .next t → t.inv = true) ∧
  ∀ (c : Config) (s t : State), s.inv = true → stepWith c s = .next t → t.inv = true

/-- R27, R40, R146: the host's actions keep the invariant too, so that every state of every run from a launch has it. Of the
invariant, R27 gives the flags; the canonical memory form is the model's choice (log 20). The load and the stop are the
spec's decisions D14 and D16 (logs 16, 17). -/
def Obligations.RunsFromLaunchKeepInvariant : Prop :=
  ∀ (c : Config) (prog : List Byte) (k : Nat), c.flagsReset.atMostOne = true →
    (launchWith c prog).inv = true ∧ (runWith c k (launchWith c prog)).inv = true ∧
    (runLimited c k (launchWith c prog)).inv = true

/-- R19: at most one flag at any time, exactly one after any CMP, and never none again after that. -/
def Obligations.FlagsAreMutuallyExclusive : Prop :=
  State.reset.flags.atMostOne = true ∧
  (∀ s t : State, s.flags.atMostOne = true → step s = .next t → t.flags.atMostOne = true) ∧
  (∀ s t : State, s.flags.exactlyOne = true → step s = .next t → t.flags.exactlyOne = true) ∧
  ∀ (a b : Byte) (s t : State), exec (.cmp a b) s = .next t → (∀ f, t.status ≠ .faulted f) → t.flags.exactlyOne = true

/-! ## Decoding and encoding -/

/-- R50 to R56: decoding reads an instruction exactly from its encoding, for every operand byte; no bit is dropped and
no other bytes decode to it. -/
def Obligations.DecodeInvertsEncode : Prop :=
  ∀ (bytes rest : List Byte) (i : Instr), decode bytes = .ok (i, rest) ↔ bytes = encode i ++ rest

/-- R56, R55: the twelve rows, values, widths and operand roles as the table writes them, and no thirteenth. -/
def Obligations.OpcodeTableIsExact : Prop :=
  (∀ rest, decode (1 :: rest) = .ok (.hlt, rest)) ∧ (∀ rest, decode (17 :: rest) = .ok (.ret, rest)) ∧
  (∀ r rest, decode (69 :: r :: rest) = .ok (.push r, rest)) ∧ (∀ r rest, decode (70 :: r :: rest) = .ok (.pop r, rest)) ∧
  (∀ r rest, decode (71 :: r :: rest) = .ok (.prn r, rest)) ∧ (∀ r rest, decode (80 :: r :: rest) = .ok (.call r, rest)) ∧
  (∀ r rest, decode (84 :: r :: rest) = .ok (.jmp r, rest)) ∧ (∀ r rest, decode (85 :: r :: rest) = .ok (.jeq r, rest)) ∧
  (∀ r rest, decode (86 :: r :: rest) = .ok (.jne r, rest)) ∧
  (∀ d v rest, decode (130 :: d :: v :: rest) = .ok (.ldi d v, rest)) ∧
  (∀ a b rest, decode (162 :: a :: b :: rest) = .ok (.mult a b, rest)) ∧
  (∀ a b rest, decode (167 :: a :: b :: rest) = .ok (.cmp a b, rest)) ∧
  ∀ (op : Byte) (rest : List Byte), op.toNat ∉ [1, 17, 69, 70, 71, 80, 84, 85, 86, 130, 162, 167] →
    decode (op :: rest) = .error (.unknownOpcode op)

/-- R57: the unknown opcodes are the ranges the rule lists. That one of them raises `IllegalInstruction`, whatever bytes
follow, is the spec's decision D1 (log 4); that the fault changes nothing but the status (R77, R127) is D10 (log 10). -/
def Obligations.UnknownOpcodesAreTheListedRanges : Prop :=
  (∀ (op : Byte) (rest : List Byte), decode (op :: rest) = .error (.unknownOpcode op) ↔
    op.toNat = 0 ∨ (2 ≤ op.toNat ∧ op.toNat ≤ 16) ∨ (18 ≤ op.toNat ∧ op.toNat ≤ 68) ∨ (72 ≤ op.toNat ∧ op.toNat ≤ 79) ∨
    (81 ≤ op.toNat ∧ op.toNat ≤ 83) ∨ (87 ≤ op.toNat ∧ op.toNat ≤ 129) ∨ (131 ≤ op.toNat ∧ op.toNat ≤ 161) ∨
    (163 ≤ op.toNat ∧ op.toNat ≤ 166) ∨ 168 ≤ op.toNat) ∧
  ∀ s : State, s.status = .running → (∀ k : Opcode, s.memRead s.pc ≠ k.value) →
    step s = .next { s with status := .faulted .illegalInstruction }

/-- R50, R54: an instruction is one, two or three contiguous bytes, the width following from the opcode byte alone. -/
def Obligations.LengthFollowsFromOpcode : Prop :=
  ∀ (op : Byte) (k : Opcode) (bytes : List Byte), opcodeOf op = some k → 1 ≤ k.width ∧ k.width ≤ 3 ∧
    (decode (op :: bytes) = .error .operandMissing ↔ bytes.length + 1 < k.width) ∧
    ∀ (i : Instr) (rest : List Byte), decode (op :: bytes) = .ok (i, rest) →
      i.opcode = k ∧ i.operands = bytes.take (k.width - 1) ∧ rest = bytes.drop (k.width - 1)

/-- R58: what the rule observes of the twelve values: bits 7:6 are the operand count, bit 5 marks MULT and CMP, bit 4
marks RET, CALL, JMP, JEQ and JNE. -/
def Obligations.OpcodeBitsMatchTheAudit : Prop :=
  ∀ k : Opcode, k.value.toNat / 64 + 1 = k.width ∧ (k.value.getLsbD 5 = true ↔ k = .mult ∨ k = .cmp) ∧
    (k.value.getLsbD 4 = true ↔ k = .ret ∨ k = .call ∨ k = .jmp ∨ k = .jeq ∨ k = .jne)

/-! ## The step -/

/-- R70 to R74: a step runs the instruction whose bytes stand at the program counter, and adds nothing to it. -/
def Obligations.StepRunsTheDecodedInstruction : Prop :=
  (∀ (s : State) (i : Instr) (rest : List Byte), s.status = .running → decode (fetchBytes s) = .ok (i, rest) →
    step s = exec i s) ∧
  ∀ (s : State) (i : Instr), s.status = .running → s.pc.toNat + (encode i).length ≤ 256 →
    (∀ (k : Nat) (h : k < (encode i).length), s.mem.read (s.pc.toNat + k) = (encode i)[k]) → step s = exec i s

/-- R70, R111, R131: from Running there is always a next state; in any other status there is none, never a refusal.
The answer outside Running is the model's reading of "no step exists" (U19, log 2). -/
def Obligations.StepExistsOnlyWhileRunning : Prop :=
  ∀ s : State, (s.status = .running → ∃ t, step s = .next t) ∧ (s.status = .halted → step s = .fault .runHalted) ∧
    (s.status = .stopped → step s = .fault .runStopped) ∧ (∀ f, s.status = .faulted f → step s = .fault (.runFaulted f))

/-- R20, R110: only a HLT reaches Halted, no step reaches Stopped, and a HLT that does not fault reaches Halted. That a HLT
at 255 faults is the spec's decision D6 (log 7). -/
def Obligations.OnlyHltHalts : Prop :=
  ∀ s t : State, step s = .next t → t.status ≠ .stopped ∧
    (t.status = .halted ↔ ∃ rest, decode (fetchBytes s) = .ok (.hlt, rest) ∧ s.pc.toNat < 255)

/-- R127, R77, R131: a fault leaves the state as it was but for the status, and no step follows; at every setting. The
untouched state is the spec's decision D10 (log 10). -/
def Obligations.FaultsArePreciseAndFinal : Prop :=
  ∀ (c : Config) (s t : State) (f : FaultName), stepWith c s = .next t → t.status = .faulted f →
    t = { s with status := .faulted f } ∧ stepWith c t = .fault (.runFaulted f)

/-- R79, R120 to R125, R129: exactly which fault each instruction reports, in the spec's order, as the function
`faultReported` reads it off the bytes of memory; and when it reports none, the machine goes on or halts. Rests on the
spec's decisions D1, D3, D5, D6, D13, on D10 and D11 (log 10) for the untouched state and the order of the checks, and on
D4 (log 5) for the pointer. -/
def Obligations.FaultReportedIsExact : Prop :=
  ∀ s : State, s.status = .running →
    (∀ f, faultReported settings s = some f → step s = .next { s with status := .faulted f }) ∧
    (faultReported settings s = none → ∃ t, step s = .next t ∧ (t.status = .running ∨ t.status = .halted))

/-- R126, R128, R121: no instruction raises `UnsupportedOperation` or `ProgramTooLarge`, and none raises
`IllegalInstruction` under `skip1`; at every setting. -/
def Obligations.FaultsNoInstructionRaises : Prop :=
  ∀ (c : Config) (s t : State), stepWith c s = .next t → t.status ≠ .faulted .unsupportedOperation ∧
    t.status ≠ .faulted .programTooLarge ∧ (c.unknownOpcode = .skip1 → t.status ≠ .faulted .illegalInstruction)

/-! ## The instructions: result, frame and completion -/

/-- R110: HLT advances by 1 and halts; nothing else changes. -/
def Obligations.HltAdvancesAndHalts : Prop :=
  ∀ s : State, s.pc.toNat + 1 < 256 → exec .hlt s = .next { s with pc := s.pc + 1, status := .halted }

/-- R90: LDI writes its literal to one register and advances by 3; nothing else changes. -/
def Obligations.LdiWritesTheLiteral : Prop :=
  ∀ (d v : Byte) (s : State) (_ : d.toNat < 8), s.pc.toNat + 3 < 256 →
    ∃ t, exec (.ldi d v) s = .next t ∧ (∀ k : Reg, t.reg k = if k.val = d.toNat then v else s.reg k) ∧
      t.pc.toNat = s.pc.toNat + 3 ∧ t.flags = s.flags ∧ t.status = s.status ∧ t.out = s.out ∧
      ∀ a : Nat, t.mem.read a = s.mem.read a

/-- R92: PRN emits one register's value and advances by 2; nothing else changes. That emitting is appending to a list is the
spec's decision D19 (log 15). -/
def Obligations.PrnEmitsTheRegister : Prop :=
  ∀ (r : Byte) (s : State) (h : r.toNat < 8), s.pc.toNat + 2 < 256 →
    exec (.prn r) s = .next { s with out := s.out ++ [s.reg ⟨r.toNat, h⟩], pc := s.pc + 2 }

/-- R87: MULT writes the product modulo 256 to the register of operand 1 (D24, log 13), flags untouched, and advances by 3;
nothing else changes. `a = b` is one of the forms. The wrap is the spec's decision D8 (log 24). -/
def Obligations.MultWritesTheProduct : Prop :=
  ∀ (a b : Byte) (s : State) (ha : a.toNat < 8) (hb : b.toNat < 8), s.pc.toNat + 3 < 256 →
    ∃ t, exec (.mult a b) s = .next t ∧
      (t.reg ⟨a.toNat, ha⟩).toNat = (s.reg ⟨a.toNat, ha⟩).toNat * (s.reg ⟨b.toNat, hb⟩).toNat % 256 ∧
      (∀ k : Reg, k.val ≠ a.toNat → t.reg k = s.reg k) ∧ t.pc.toNat = s.pc.toNat + 3 ∧ t.flags = s.flags ∧
      t.status = s.status ∧ t.out = s.out ∧ ∀ x : Nat, t.mem.read x = s.mem.read x

/-- R88, R89: CMP sets exactly the flag of the unsigned order of its two registers, packed as the table says, and advances
by 3; nothing else changes. Operand order and sign are the spec's decision D9 (log 13), the packing D7 (log 14). -/
def Obligations.CmpSetsTheFlagOfTheOrder : Prop :=
  ∀ (a b : Byte) (s : State) (ha : a.toNat < 8) (hb : b.toNat < 8), s.pc.toNat + 3 < 256 →
    let va := (s.reg ⟨a.toNat, ha⟩).toNat
    let vb := (s.reg ⟨b.toNat, hb⟩).toNat
    ∃ t, exec (.cmp a b) s = .next t ∧
      (va = vb → t.flags = ⟨true, false, false⟩ ∧ t.flags.pack = 1) ∧
      (vb < va → t.flags = ⟨false, true, false⟩ ∧ t.flags.pack = 2) ∧
      (va < vb → t.flags = ⟨false, false, true⟩ ∧ t.flags.pack = 4) ∧
      t.regs = s.regs ∧ t.pc.toNat = s.pc.toNat + 3 ∧ t.status = s.status ∧ t.out = s.out ∧
      ∀ x : Nat, t.mem.read x = s.mem.read x

/-- R96: PUSH decrements the pointer, writes the operand register, read after the decrement (D13, log 11), to the cell
the pointer then addresses, and advances by 2; every other register and byte is as before. That the pointer is register
7 is PRESUMED (D4, log 5). -/
def Obligations.PushWritesBelowTheStack : Prop :=
  ∀ (r : Byte) (s : State) (h : r.toNat < 8), s.sp settings ≠ 0 → s.pc.toNat + 2 < 256 →
    ∃ t, exec (.push r) s = .next t ∧ (∀ k : Reg, t.reg k = if k = 7 then s.reg 7 - 1 else s.reg k) ∧
      t.mem.read (pushAddress settings s).toNat = (if r.toNat = 7 then s.reg 7 - 1 else s.reg ⟨r.toNat, h⟩) ∧
      (∀ a : Nat, a ≠ (pushAddress settings s).toNat → t.mem.read a = s.mem.read a) ∧
      (pushAddress settings s).toNat + 1 = (s.reg 7).toNat ∧
      t.pc.toNat = s.pc.toNat + 2 ∧ t.flags = s.flags ∧ t.status = s.status ∧ t.out = s.out

/-- R97, the operand not the stack pointer: POP loads the cell the pointer addresses, increments the pointer, advances
by 2; the popped cell and every other register keep their values. That the pointer is register 7 is PRESUMED (D4,
log 5). -/
def Obligations.PopLoadsTheTop : Prop :=
  ∀ (r : Byte) (s : State) (_ : r.toNat < 7), s.reg 7 ≠ 255 → s.pc.toNat + 2 < 256 →
    ∃ t, exec (.pop r) s = .next t ∧
      (∀ k : Reg, t.reg k = if k = 7 then s.reg 7 + 1 else if k.val = r.toNat then s.memRead (s.reg 7) else s.reg k) ∧
      t.pc.toNat = s.pc.toNat + 2 ∧ t.flags = s.flags ∧ t.status = s.status ∧ t.out = s.out ∧
      ∀ a : Nat, t.mem.read a = s.mem.read a

/-- R97, the operand the stack pointer: load, then increment (the spec's decision D13, log 11), so that the pointer ends
as the loaded byte plus 1, and a loaded 255 underflows. That the pointer is register 7 is PRESUMED (D4, log 5). Of the
underflow, the name is the spec's decision D3 (log 12), the untouched state D10 and the place before the pc check D11 (both
log 10). -/
def Obligations.PopIntoTheStackPointer : Prop :=
  ∀ s : State,
    (s.memRead (s.reg 7) ≠ 255 → s.pc.toNat + 2 < 256 → ∃ t, exec (.pop 7) s = .next t ∧
      (∀ k : Reg, t.reg k = if k = 7 then s.memRead (s.reg 7) + 1 else s.reg k) ∧
      t.pc.toNat = s.pc.toNat + 2 ∧ t.flags = s.flags ∧ t.status = s.status ∧ t.out = s.out ∧
      ∀ a : Nat, t.mem.read a = s.mem.read a) ∧
    (s.memRead (s.reg 7) = 255 → exec (.pop 7) s = .next { s with status := .faulted .stackUnderflow })

/-- R100: CALL pushes `pc + 2` and jumps to the operand register, read after the push (D13, log 11); every other register
and byte is as before. That the pointer is register 7 is PRESUMED (D4, log 5). -/
def Obligations.CallPushesTheReturnAddress : Prop :=
  ∀ (r : Byte) (s : State) (h : r.toNat < 8), s.sp settings ≠ 0 → s.pc.toNat + 2 < 256 →
    ∃ t, exec (.call r) s = .next t ∧ (∀ k : Reg, t.reg k = if k = 7 then s.reg 7 - 1 else s.reg k) ∧
      (t.mem.read (pushAddress settings s).toNat).toNat = s.pc.toNat + 2 ∧
      (∀ a : Nat, a ≠ (pushAddress settings s).toNat → t.mem.read a = s.mem.read a) ∧
      (pushAddress settings s).toNat + 1 = (s.reg 7).toNat ∧
      t.pc = (if r.toNat = 7 then s.reg 7 - 1 else s.reg ⟨r.toNat, h⟩) ∧
      t.flags = s.flags ∧ t.status = s.status ∧ t.out = s.out

/-- R101: RET pops the top stack byte into the program counter; nothing but the pointer and the pc changes. That RET is
the corrected one is the spec's decision D2; that the pointer is register 7 is PRESUMED (D4, log 5). -/
def Obligations.RetPopsTheProgramCounter : Prop :=
  ∀ s : State, s.reg 7 ≠ 255 → ∃ t, exec .ret s = .next t ∧ t.pc = s.memRead (s.reg 7) ∧
    (∀ k : Reg, t.reg k = if k = 7 then s.reg 7 + 1 else s.reg k) ∧ t.flags = s.flags ∧ t.status = s.status ∧
    t.out = s.out ∧ ∀ a : Nat, t.mem.read a = s.mem.read a

/-- R108: the target of a jump is the whole value of a register; the one condition is E; a jump not taken falls through to
`pc + 2`; nothing but the pc changes. JMP, JEQ and JNE. -/
def Obligations.JumpsGoToTheRegister : Prop :=
  ∀ (r : Byte) (s : State) (h : r.toNat < 8),
    exec (.jmp r) s = .next { s with pc := s.reg ⟨r.toNat, h⟩ } ∧
    (s.flags.E = true → exec (.jeq r) s = .next { s with pc := s.reg ⟨r.toNat, h⟩ } ∧
      (s.pc.toNat + 2 < 256 → exec (.jne r) s = .next { s with pc := s.pc + 2 })) ∧
    (s.flags.E = false → exec (.jne r) s = .next { s with pc := s.reg ⟨r.toNat, h⟩ } ∧
      (s.pc.toNat + 2 < 256 → exec (.jeq r) s = .next { s with pc := s.pc + 2 }))

/-- R75, R123, R53: an instruction raises `RegisterIndexOutOfRange` exactly when a register operand is 8 or more, taken or
not, whatever the pc and the stack pointer. The fault is the spec's decision D5 (log 9), its untouched state D10 (R77, R127)
and its place before the other checks D11 (both log 10). -/
def Obligations.BadRegisterIndexFaults : Prop :=
  ∀ (i : Instr) (s : State), s.status = .running →
    (i.wellFormed = false ↔ exec i s = .next { s with status := .faulted .registerIndexOutOfRange })

/-- R98, R124, R125: PUSH and CALL overflow at a pointer of 0, POP and RET underflow at 255, before the pc is looked at.
The guard's names are the spec's decision D3 (log 12), the untouched state D10 (R77, R127) and the guard's place before the
pc check D11 (both log 10); that the pointer is register 7 is PRESUMED (D4, log 5). POP into the pointer:
`PopIntoTheStackPointer`. -/
def Obligations.StackBoundsAreGuarded : Prop :=
  ∀ (r : Byte) (s : State), r.toNat < 8 →
    (s.reg 7 = 0 → exec (.push r) s = .next { s with status := .faulted .stackOverflow } ∧
      exec (.call r) s = .next { s with status := .faulted .stackOverflow }) ∧
    (s.reg 7 = 255 → exec .ret s = .next { s with status := .faulted .stackUnderflow } ∧
      (r.toNat ≠ 7 → exec (.pop r) s = .next { s with status := .faulted .stackUnderflow }))

/-- R16, R76, R122: a sequential next pc, or CALL's return address, of 256 or more raises `AddressOutOfRange` and never
wraps, when no earlier check fails. HLT at 255 and CALL at 254 are the spec's decision D6 (log 7); that the pointer whose
guard comes first is register 7 is PRESUMED (D4, log 5), that POP 7 guards the loaded byte is D13 (log 11), and the
untouched state and the order of the checks are D10 and D11 (log 10). -/
def Obligations.ProgramCounterNeverWraps : Prop :=
  ∀ s : State, let out := Host.Outcome.next (φ := Fault) (ρ := Refusal) { s with status := .faulted .addressOutOfRange }
    (s.pc = 255 → exec .hlt s = out) ∧
    ∀ a b v : Byte, a.toNat < 8 → b.toNat < 8 →
      (254 ≤ s.pc.toNat → exec (.prn a) s = out ∧ (s.reg 7 ≠ 0 → exec (.push a) s = out ∧ exec (.call a) s = out) ∧
        (s.reg 7 ≠ 255 → a ≠ 7 → exec (.pop a) s = out) ∧ (s.memRead (s.reg 7) ≠ 255 → exec (.pop 7) s = out) ∧
        (s.flags.E = false → exec (.jeq a) s = out) ∧ (s.flags.E = true → exec (.jne a) s = out)) ∧
      (253 ≤ s.pc.toNat → exec (.ldi a v) s = out ∧ exec (.mult a b) s = out ∧ exec (.cmp a b) s = out)

/-! ## Rules over all instructions -/

/-- R18: CMP is the only writer of the flags and writes all three whatever they were; JEQ and JNE are the only readers and
read E only; the ALU's ADD and MULT leave the flags alone. -/
def Obligations.FlagsAreWrittenByCmpAlone : Prop :=
  (∀ (i : Instr) (s t : State), exec i s = .next t → (∀ a b, i ≠ .cmp a b) → t.flags = s.flags) ∧
  (∀ (a b : Byte) (s t : State), exec (.cmp a b) s = .next t → (∀ f, t ≠ { s with status := .faulted f }) →
    ∀ g : Flags, exec (.cmp a b) { s with flags := g } = .next t) ∧
  (∀ (i : Instr) (s : State) (g : Flags), (∀ r, i = .jeq r ∨ i = .jne r → g.E = s.flags.E) →
    ∃ t g', exec i s = .next t ∧ exec i { s with flags := g } = .next { t with flags := g' }) ∧
  ∀ (a b : Reg) (s t : State) (v : Option Byte), alu .add a b s = .ok (t, v) ∨ alu .mult a b s = .ok (t, v) →
    t.flags = s.flags

/-- R11, the "registers written" column: which register an instruction may change. That the stack pointer is register 7 is
PRESUMED (D4, log 5), and that MULT writes its first operand is the spec's decision D24 (log 13). -/
def Obligations.RegistersWrittenAreTheListedOnes : Prop :=
  ∀ (i : Instr) (s t : State) (k : Reg), exec i s = .next t → t.reg k ≠ s.reg k →
    (k = 7 ∧ (i = .ret ∨ ∃ r, i = .push r ∨ i = .pop r ∨ i = .call r)) ∨ (∃ v, i = .ldi (BitVec.ofNat 8 k.val) v) ∨
    (∃ b, i = .mult (BitVec.ofNat 8 k.val) b) ∨ i = .pop (BitVec.ofNat 8 k.val)

/-- R11, the "registers read" column: a register that an instruction does not read can hold anything; the instruction does
the same, and the register keeps what it held unless the instruction writes it. That the stack pointer is register 7, as
`registerRead` has it, is PRESUMED (D4, log 5). -/
def Obligations.RegistersReadAreTheListedOnes : Prop :=
  ∀ (i : Instr) (s : State) (k : Reg) (v : Byte), registerRead i s.flags k = false → ∃ t, exec i s = .next t ∧
    (exec i (s.setReg k v) = .next t ∨ exec i (s.setReg k v) = .next (t.setReg k v))

/-- R32, R46: PUSH and CALL are the only instructions that write memory, and they write one cell, the one below the stack
pointer (at the machine's settings register 7, PRESUMED: D4, log 5). -/
def Obligations.MemoryIsWrittenByPushAndCallAlone : Prop :=
  ∀ (i : Instr) (s t : State) (a : Nat), exec i s = .next t → t.mem.read a ≠ s.mem.read a →
    (∃ r, i = .push r ∨ i = .call r) ∧ a = (pushAddress settings s).toNat

/-- R15: how each instruction that does not fault leaves the pc. CALL's and JEQ's rows as the table has them; CALL's target
is read after the push (D13, log 11); that RET's pointer is register 7 is PRESUMED (D4, log 5). -/
def Obligations.ProgramCounterAfterEachInstruction : Prop :=
  ∀ (i : Instr) (s t : State), s.status = .running → exec i s = .next t → (∀ f, t.status ≠ .faulted f) →
    match i with
    | .hlt => t.pc.toNat = s.pc.toNat + 1
    | .prn _ => t.pc.toNat = s.pc.toNat + 2
    | .push _ => t.pc.toNat = s.pc.toNat + 2
    | .pop _ => t.pc.toNat = s.pc.toNat + 2
    | .ldi _ _ => t.pc.toNat = s.pc.toNat + 3
    | .mult _ _ => t.pc.toNat = s.pc.toNat + 3
    | .cmp _ _ => t.pc.toNat = s.pc.toNat + 3
    | .jmp r => ∃ h : r.toNat < 8, t.pc = s.reg ⟨r.toNat, h⟩
    | .jeq r => ∃ h : r.toNat < 8, if s.flags.E then t.pc = s.reg ⟨r.toNat, h⟩ else t.pc.toNat = s.pc.toNat + 2
    | .jne r => ∃ h : r.toNat < 8, if s.flags.E then t.pc.toNat = s.pc.toNat + 2 else t.pc = s.reg ⟨r.toNat, h⟩
    | .call r => ∃ h : r.toNat < 8, t.pc = t.reg ⟨r.toNat, h⟩
    | .ret => t.pc = s.memRead (s.reg 7)

/-- R22: the output trace is what PRN has emitted since reset, oldest first: a step on a PRN that does not fault appends
the operand register's value, every other step appends nothing; and nothing in the core reads the trace: with another trace
the step is the same and appends the same. The trace as a list is the spec's decision D19 (log 15), that a faulting step
emits nothing (R127) D10 (log 10). -/
def Obligations.OutputIsWhatPrnEmitted : Prop :=
  State.reset.out = [] ∧ ∀ (c : Config) (s t : State), stepWith c s = .next t → ∃ e : List Byte, t.out = s.out ++ e ∧
    (∀ (r : Byte) (rest : List Byte), decode (fetchBytes s) = .ok (.prn r, rest) → (∀ f, t.status ≠ .faulted f) →
      ∃ h : r.toNat < 8, e = [s.reg ⟨r.toNat, h⟩]) ∧
    ((∀ (r : Byte) (rest : List Byte), decode (fetchBytes s) ≠ .ok (.prn r, rest)) ∨ (∃ f, t.status = .faulted f) →
      e = []) ∧
    ∀ o : List Byte, stepWith c { s with out := o } = .next { t with out := o ++ e }

/-- R93, R92: over a whole run, what was emitted stays, in order, and at most one byte is added per step. -/
def Obligations.OutputOnlyGrowsOverARun : Prop :=
  ∀ (c : Config) (k : Nat) (s : State), ∃ e : List Byte, e.length ≤ k ∧ (runWith c k s).out = s.out ++ e

/-! ## Memory -/

/-- R33: a cell returns the byte last written to it, or 0 if nothing wrote it since reset; writes are idempotent; no other
cell changes; the only writers are the load, PUSH and CALL, and a step of one of the two that does not fault leaves its
byte in the cell it pushes to and every other cell as it was (R96, R100). The pushed cell rests on the pointer's being
register 7, PRESUMED (D4, log 5), a pushed pointer's value on D13 (log 11), the load's bound on D14 (log 16). -/
def Obligations.MemoryReturnsTheLastWrite : Prop :=
  (∀ (m : Memory) (a : Nat) (v : Byte) (b : Nat), (m.write a v).read b = if b = a then v else m.read b) ∧
  (∀ (m : Memory) (a : Nat) (v : Byte), (m.write a v).write a v = m.write a v) ∧
  (∀ a : Nat, State.reset.mem.read a = 0) ∧
  (∀ (prog : List Byte) (s : State) (i : Nat) (h : i < prog.length), prog.length ≤ 256 → (load prog s).mem.read i = prog[i]) ∧
  (∀ s t : State, step s = .next t → t.mem ≠ s.mem →
    ∃ r rest, decode (fetchBytes s) = .ok (.push r, rest) ∨ decode (fetchBytes s) = .ok (.call r, rest)) ∧
  ∀ (r : Byte) (rest : List Byte) (s t : State), step s = .next t → (∀ f, t.status ≠ .faulted f) →
    (decode (fetchBytes s) = .ok (.push r, rest) → ∃ h : r.toNat < 8, ∀ a : Nat,
      t.mem.read a = if a = (pushAddress settings s).toNat then t.reg ⟨r.toNat, h⟩ else s.mem.read a) ∧
    (decode (fetchBytes s) = .ok (.call r, rest) → ∀ a : Nat,
      t.mem.read a = if a = (pushAddress settings s).toNat then s.pc + 2 else s.mem.read a)

/-- Log 20: the canonical form makes equal memories equal data. -/
def Obligations.CanonicalMemoriesAreEqualData : Prop :=
  ∀ m n : Memory, m.wf = true → n.wf = true → (∀ a : Nat, m.read a = n.read a) → m = n

/-- R44: a byte that PUSH or CALL writes is what a fetch of that address reads in the very next step (D22). That the pointer
is register 7 is PRESUMED (D4, log 5); the value that a PUSH of it stores is D13 (log 11). -/
def Obligations.FetchSeesTheStackWrite : Prop :=
  ∀ (r : Byte) (s t : State) (h : r.toNat < 8), s.status = .running → (∀ f, t.status ≠ .faulted f) →
    (exec (.push r) s = .next t → (fetchBytes (t.setPc (pushAddress settings s))).head? =
      some (if r.toNat = 7 then s.reg 7 - 1 else s.reg ⟨r.toNat, h⟩)) ∧
    (exec (.call r) s = .next t → (fetchBytes (t.setPc (pushAddress settings s))).head? = some (s.pc + 2))

/-! ## The stack, for every choice of the stack pointer -/

/-- R99: PUSH then POP on the same register, the pointer itself included, gives every register back, at every `SP_INDEX`,
and the popped cell keeps the pushed value. For the pointer itself it rests on D13 (log 11). -/
def Obligations.PushThenPopRoundTrips : Prop :=
  ∀ (c : Config) (r : Byte) (s : State) (_ : r.toNat < 8), s.sp c ≠ 0 → s.pc.toNat + 4 < 256 →
    ∃ t u, execWith c (.push r) s = .next t ∧ execWith c (.pop r) t = .next u ∧ (∀ k : Reg, u.reg k = s.reg k) ∧
      u.pc.toNat = s.pc.toNat + 4 ∧ u.flags = s.flags ∧ u.status = s.status ∧ u.out = s.out ∧
      (r.toNat ≠ c.spIndex.val → ∀ h : r.toNat < 8, u.memRead (s.sp c - 1) = s.reg ⟨r.toNat, h⟩) ∧
      ∀ a : Nat, a ≠ (s.sp c - 1).toNat → u.mem.read a = s.mem.read a

/-- R102: a RET, from any state with the pointer and its cell as the CALL left them, resumes at the CALL's address plus 2
with the pointer as before the CALL; the pair changes no other register and no flag; at every `SP_INDEX`. The corrected RET
is the spec's decision D2, the bound on the return address D6 (log 7). -/
def Obligations.CallThenRetResumes : Prop :=
  ∀ (c : Config) (r : Byte) (s : State) (_ : r.toNat < 8), s.sp c ≠ 0 → s.pc.toNat + 2 < 256 →
    ∃ t, execWith c (.call r) s = .next t ∧ (∀ k : Reg, k ≠ c.spIndex → t.reg k = s.reg k) ∧ t.flags = s.flags ∧
      ∀ u : State, u.sp c = t.sp c → u.memRead (t.sp c) = t.memRead (t.sp c) →
        ∃ v, execWith c .ret u = .next v ∧ v.pc.toNat = s.pc.toNat + 2 ∧ v.sp c = s.sp c ∧
          (∀ k : Reg, k ≠ c.spIndex → v.reg k = u.reg k) ∧ v.flags = u.flags ∧ v.mem = u.mem

/-! ## The ALU -/

/-- R81, R82, R85: the ALU's MULT and ADD give the low eight bits of the exact result, with no flag and no fault; MULT
itself writes no register, ADD writes `x[a]` alone. The wrap is the spec's decision D8 (log 24). -/
def Obligations.AluArithmeticWrapsSilently : Prop :=
  ∀ (a b : Reg) (s : State),
    (∃ p : Byte, alu .mult a b s = .ok (s, some p) ∧ p.toNat = (s.reg a).toNat * (s.reg b).toNat % 256) ∧
    ∃ t, alu .add a b s = .ok (t, none) ∧ (t.reg a).toNat = ((s.reg a).toNat + (s.reg b).toNat) % 256 ∧
      (∀ k : Reg, k ≠ a → t.reg k = s.reg k) ∧ t.flags = s.flags ∧ t.pc = s.pc ∧ t.status = s.status ∧ t.mem = s.mem ∧
      t.out = s.out

/-- R83, R84: the ALU's CMP writes the flags alone, by the unsigned order (D9, log 13), and an operation name outside the
three fails with `UnsupportedOperation` (log 22). -/
def Obligations.AluComparesAndRejectsOtherNames : Prop :=
  ∀ (a b : Reg) (s : State),
    (∃ f : Flags, alu .cmp a b s = .ok ({ s with flags := f }, none) ∧ (f.E = true ↔ s.reg a = s.reg b) ∧
      (f.G = true ↔ (s.reg b).toNat < (s.reg a).toNat) ∧ (f.L = true ↔ (s.reg a).toNat < (s.reg b).toNat)) ∧
    alu .unsupported a b s = .error .unsupportedOperation

/-! ## Parameters -/

/-- R5: the machine is the parametric machine at the spec's settings. -/
def Obligations.MachineIsTheParametricOneAtItsSettings : Prop :=
  (∀ s : State, step s = stepWith settings s) ∧ (∀ (i : Instr) (s : State), exec i s = execWith settings i s) ∧
  State.reset = State.resetWith settings ∧ settings = { : Config }

/-- R73, R54, R121, under the policy `skip1` (D1, log 4): an unknown opcode, whatever its bits, is a one-byte no-op that
advances the pc by 1, and faults at 255. The fault there instead of a wrap is the spec's decision D6 (log 7), its
untouched state (R77, R127) D10 (log 10). -/
def Obligations.SkipPolicyAdvancesByOne : Prop :=
  ∀ (c : Config) (s : State), c.unknownOpcode = .skip1 → s.status = .running → (∀ k : Opcode, s.memRead s.pc ≠ k.value) →
    c.addOpcode ≠ some (s.memRead s.pc) →
    (s.pc.toNat < 255 → stepWith c s = .next { s with pc := s.pc + 1 }) ∧
    (s.pc = 255 → stepWith c s = .next { s with status := .faulted .addressOutOfRange })

/-- D18, log 8: when `ADD_OPCODE` is present, with a value not among the twelve, it decodes as a three-byte instruction that
adds its second register into its first modulo 256 (the wrap is D8, log 24), flags untouched. -/
def Obligations.AddOpcodeAddsRegisters : Prop :=
  ∀ (c : Config) (s : State), s.status = .running → c.addOpcode = some (s.memRead s.pc) →
    (∀ k : Opcode, s.memRead s.pc ≠ k.value) → s.pc.toNat + 3 < 256 →
    ∀ (ha : (s.mem.read (s.pc.toNat + 1)).toNat < 8) (hb : (s.mem.read (s.pc.toNat + 2)).toNat < 8),
      let a : Reg := ⟨_, ha⟩
      let b : Reg := ⟨_, hb⟩
      ∃ t, stepWith c s = .next t ∧ (t.reg a).toNat = ((s.reg a).toNat + (s.reg b).toNat) % 256 ∧
        (∀ k : Reg, k ≠ a → t.reg k = s.reg k) ∧ t.pc.toNat = s.pc.toNat + 3 ∧ t.flags = s.flags ∧ t.status = s.status ∧
        t.mem = s.mem ∧ t.out = s.out

/-! ## The host -/

/-- R40: a load of at most 256 bytes writes them from address 0 on and changes nothing else. That it happens once, after
reset, is the spec's decision D14 (log 16). -/
def Obligations.LoadPlacesTheProgram : Prop :=
  ∀ (prog : List Byte) (s : State), prog.length ≤ 256 →
    (∀ (i : Nat) (h : i < prog.length), (load prog s).mem.read i = prog[i]) ∧
    (∀ i : Nat, prog.length ≤ i → (load prog s).mem.read i = s.mem.read i) ∧ (load prog s).regs = s.regs ∧
    (load prog s).pc = s.pc ∧ (load prog s).flags = s.flags ∧ (load prog s).status = s.status ∧ (load prog s).out = s.out

/-- R41, R128: a longer program raises `ProgramTooLarge`, memory as before, and no step is ever taken (D14, log 16). That
nothing else changes either is D10 (R127, log 10). -/
def Obligations.TooLargeProgramNeverRuns : Prop :=
  ∀ (c : Config) (prog : List Byte) (s : State), 256 < prog.length →
    load prog s = { s with status := .faulted .programTooLarge } ∧
    stepWith c (load prog s) = .fault (.runFaulted .programTooLarge) ∧ ∀ k, runWith c k (load prog s) = load prog s

/-- R144: the launch state, and that the first step executes the instruction at the head of the program. The pc of 0 (D6,
log 7), the clear flags (D7, log 6), Running (D17, log 18) and the load (D14, log 16) are the spec's decisions. -/
def Obligations.LaunchRunsTheFirstInstruction : Prop :=
  ∀ (prog rest : List Byte) (i : Instr), prog = encode i ++ rest → prog.length ≤ 256 →
    (launch prog).regs = State.reset.regs ∧ (launch prog).pc = 0 ∧ (launch prog).flags = ⟨false, false, false⟩ ∧
    (launch prog).status = .running ∧ (launch prog).out = [] ∧
    (∀ a : Nat, (launch prog).mem.read a = if h : a < prog.length then prog[a] else 0) ∧
    step (launch prog) = exec i (launch prog)

/-- R146, R20: a stop changes only the status of a running machine, leaves an ended one as it is, and is final; with a cycle
limit no run is left Running. The stop is the spec's decision D16 (log 17). -/
def Obligations.HostStopEndsTheRun : Prop :=
  ∀ (c : Config) (k : Nat) (s : State), (s.status = .running → hostStop s = { s with status := .stopped }) ∧
    (s.status ≠ .running → hostStop s = s) ∧ (runLimited c k s).status ≠ .running ∧
    ∀ j, runWith c j (hostStop s) = hostStop s

/-- R111, R131, R78: a run that has ended stays as it ended: more fuel changes nothing. -/
def Obligations.EndedRunsStayEnded : Prop :=
  ∀ (c : Config) (k j : Nat) (s : State), (runWith c k s).ended = true → runWith c (k + j) s = runWith c k s
end

