-- ==== Sys2Proof/Laws/Decode.lean ====
section
/-! SUPPORT. What decoding can answer. -/

namespace Sys2Proof

/-- The opcode a byte stands for, by the byte alone (R55). -/
theorem opcodeOf_value (k : Opcode) : opcodeOf k.value = some k := by cases k <;> rfl

/-- A byte that stands for an opcode is that opcode's value (R55). -/
theorem value_of_opcodeOf {op : Byte} {k : Opcode} (h : opcodeOf op = some k) : k.value = op := by
  simpa using List.find?_some h

theorem opcodeOf_eq_some {op : Byte} {k : Opcode} : opcodeOf op = some k ↔ op = k.value :=
  ⟨fun h => (value_of_opcodeOf h).symm, fun h => h ▸ opcodeOf_value k⟩

/-- A byte stands for no opcode exactly when it is the value of none (R57). -/
theorem opcodeOf_eq_none {op : Byte} : opcodeOf op = none ↔ ∀ k : Opcode, op ≠ k.value := by
  constructor
  · rintro h k rfl
    simp [opcodeOf_value] at h
  · intro h
    cases e : opcodeOf op with
    | none => rfl
    | some k => exact absurd (value_of_opcodeOf e).symm (h k)

theorem decode_known {op : Byte} {k : Opcode} (h : opcodeOf op = some k) (bytes : List Byte) :
    decode (op :: bytes) = decodeOperands k bytes := by simp [decode, h]

theorem decode_unknown {op : Byte} (h : opcodeOf op = none) (bytes : List Byte) :
    decode (op :: bytes) = .error (.unknownOpcode op) := by simp [decode, h]

theorem oneOperand_eq_ok {f : Byte → Instr} {bytes rest : List Byte} {i : Instr} :
    oneOperand f bytes = .ok (i, rest) ↔ ∃ a, bytes = a :: rest ∧ i = f a := by
  cases bytes with
  | nil => simp [oneOperand]
  | cons x xs =>
    simp only [oneOperand, Except.ok.injEq, Prod.mk.injEq, List.cons.injEq]
    exact ⟨fun ⟨h, h'⟩ => ⟨x, ⟨rfl, h'⟩, h.symm⟩, fun ⟨a, ⟨e, h'⟩, h⟩ => ⟨by rw [h, e], h'⟩⟩

theorem twoOperands_eq_ok {f : Byte → Byte → Instr} {bytes rest : List Byte} {i : Instr} :
    twoOperands f bytes = .ok (i, rest) ↔ ∃ a b, bytes = a :: b :: rest ∧ i = f a b := by
  match bytes with
  | [] => simp [twoOperands]
  | [_] => simp [twoOperands]
  | x :: y :: zs =>
    simp only [twoOperands, Except.ok.injEq, Prod.mk.injEq, List.cons.injEq]
    exact ⟨fun ⟨h, h'⟩ => ⟨x, y, ⟨rfl, rfl, h'⟩, h.symm⟩, fun ⟨a, b, ⟨e, e', h'⟩, h⟩ => ⟨by rw [h, e, e'], h'⟩⟩

end Sys2Proof
end

