-- ==== Sys2Proof/Laws/State.lean ====
section
/-! SUPPORT. What each update of a state does to each field, and to each register. -/

namespace Sys2Proof.Machine

variable (s : State) (r : Reg) (v a : Byte) (f : Flags) (u : Status) (c : Config)

@[simp] theorem setReg_pc : (s.setReg r v).pc = s.pc := rfl
@[simp] theorem setReg_flags : (s.setReg r v).flags = s.flags := rfl
@[simp] theorem setReg_status : (s.setReg r v).status = s.status := rfl
@[simp] theorem setReg_mem : (s.setReg r v).mem = s.mem := rfl
@[simp] theorem setReg_out : (s.setReg r v).out = s.out := rfl

@[simp] theorem setSp_pc : (s.setSp c v).pc = s.pc := rfl
@[simp] theorem setSp_flags : (s.setSp c v).flags = s.flags := rfl
@[simp] theorem setSp_status : (s.setSp c v).status = s.status := rfl
@[simp] theorem setSp_mem : (s.setSp c v).mem = s.mem := rfl
@[simp] theorem setSp_out : (s.setSp c v).out = s.out := rfl

@[simp] theorem setPc_regs : (s.setPc v).regs = s.regs := rfl
@[simp] theorem setPc_pc : (s.setPc v).pc = v := rfl
@[simp] theorem setPc_flags : (s.setPc v).flags = s.flags := rfl
@[simp] theorem setPc_status : (s.setPc v).status = s.status := rfl
@[simp] theorem setPc_mem : (s.setPc v).mem = s.mem := rfl
@[simp] theorem setPc_out : (s.setPc v).out = s.out := rfl

@[simp] theorem setFlags_regs : (s.setFlags f).regs = s.regs := rfl
@[simp] theorem setFlags_pc : (s.setFlags f).pc = s.pc := rfl
@[simp] theorem setFlags_flags : (s.setFlags f).flags = f := rfl
@[simp] theorem setFlags_status : (s.setFlags f).status = s.status := rfl
@[simp] theorem setFlags_mem : (s.setFlags f).mem = s.mem := rfl
@[simp] theorem setFlags_out : (s.setFlags f).out = s.out := rfl

@[simp] theorem setStatus_regs : (s.setStatus u).regs = s.regs := rfl
@[simp] theorem setStatus_pc : (s.setStatus u).pc = s.pc := rfl
@[simp] theorem setStatus_flags : (s.setStatus u).flags = s.flags := rfl
@[simp] theorem setStatus_status : (s.setStatus u).status = u := rfl
@[simp] theorem setStatus_mem : (s.setStatus u).mem = s.mem := rfl
@[simp] theorem setStatus_out : (s.setStatus u).out = s.out := rfl

@[simp] theorem memWrite_regs : (s.memWrite a v).regs = s.regs := rfl
@[simp] theorem memWrite_pc : (s.memWrite a v).pc = s.pc := rfl
@[simp] theorem memWrite_flags : (s.memWrite a v).flags = s.flags := rfl
@[simp] theorem memWrite_status : (s.memWrite a v).status = s.status := rfl
@[simp] theorem memWrite_mem : (s.memWrite a v).mem = s.mem.write a.toNat v := rfl
@[simp] theorem memWrite_out : (s.memWrite a v).out = s.out := rfl

@[simp] theorem emit_regs : (s.emit v).regs = s.regs := rfl
@[simp] theorem emit_pc : (s.emit v).pc = s.pc := rfl
@[simp] theorem emit_flags : (s.emit v).flags = s.flags := rfl
@[simp] theorem emit_status : (s.emit v).status = s.status := rfl
@[simp] theorem emit_mem : (s.emit v).mem = s.mem := rfl
@[simp] theorem emit_out : (s.emit v).out = s.out ++ [v] := rfl

/-! Registers. -/

@[simp] theorem setPc_reg (k : Reg) : (s.setPc v).reg k = s.reg k := rfl
@[simp] theorem setFlags_reg (k : Reg) : (s.setFlags f).reg k = s.reg k := rfl
@[simp] theorem setStatus_reg (k : Reg) : (s.setStatus u).reg k = s.reg k := rfl
@[simp] theorem memWrite_reg (k : Reg) : (s.memWrite a v).reg k = s.reg k := rfl
@[simp] theorem emit_reg (k : Reg) : (s.emit v).reg k = s.reg k := rfl

/-- A register write changes that register alone (R13). -/
@[simp] theorem setReg_reg (k : Reg) : (s.setReg r v).reg k = if k = r then v else s.reg k := by
  by_cases h : k = r
  · subst h; simp [State.reg, State.setReg]
  · have : r.val ≠ k.val := fun e => h (Fin.ext e.symm)
    simp [State.reg, State.setReg, h, this]

@[simp] theorem setSp_reg (k : Reg) : (s.setSp c v).reg k = if k = c.spIndex then v else s.reg k := by
  simp [State.setSp]

/-- The stack pointer is the register `x[SP_INDEX]`: the same storage (R12). -/
theorem sp_eq_reg : s.sp c = s.reg c.spIndex := rfl

@[simp] theorem setSp_sp : (s.setSp c v).sp c = v := by simp [sp_eq_reg]
@[simp] theorem setReg_sp : (s.setReg r v).sp c = if c.spIndex = r then v else s.sp c := by
  simp [sp_eq_reg]
@[simp] theorem setPc_sp : (s.setPc v).sp c = s.sp c := rfl
@[simp] theorem setFlags_sp : (s.setFlags f).sp c = s.sp c := rfl
@[simp] theorem setStatus_sp : (s.setStatus u).sp c = s.sp c := rfl
@[simp] theorem memWrite_sp : (s.memWrite a v).sp c = s.sp c := rfl
@[simp] theorem emit_sp : (s.emit v).sp c = s.sp c := rfl

/-! Cells. What `memWrite` does to a cell is in Laws/Memory.lean. -/

@[simp] theorem setReg_memRead (b : Byte) : (s.setReg r v).memRead b = s.memRead b := rfl
@[simp] theorem setSp_memRead (b : Byte) : (s.setSp c v).memRead b = s.memRead b := rfl
@[simp] theorem setPc_memRead (b : Byte) : (s.setPc v).memRead b = s.memRead b := rfl
@[simp] theorem setFlags_memRead (b : Byte) : (s.setFlags f).memRead b = s.memRead b := rfl
@[simp] theorem setStatus_memRead (b : Byte) : (s.setStatus u).memRead b = s.memRead b := rfl
@[simp] theorem emit_memRead (b : Byte) : (s.emit v).memRead b = s.memRead b := rfl

/-- Two register files with equal registers are equal. -/
theorem regs_ext {s t : State} (h : ∀ k, s.reg k = t.reg k) : s.regs = t.regs :=
  Vector.ext fun i hi => h ⟨i, hi⟩

end Sys2Proof.Machine
end

