-- ==== Sys2Proof/Laws/Operands.lean ====
section
/-! SUPPORT. Everything the shared checks of the instructions can answer. -/

namespace Sys2Proof.Machine

@[simp] theorem settings_spIndex : settings.spIndex = 7 := rfl
@[simp] theorem settings_addOpcode : settings.addOpcode = none := rfl
@[simp] theorem settings_unknownOpcode : settings.unknownOpcode = .fault := rfl

@[simp] theorem checked_ok_bind {α β : Type} (a : α) (k : α → Checked β) : (Except.ok a >>= k) = k a := rfl
@[simp] theorem checked_error_bind {α β : Type} (f : FaultName) (k : α → Checked β) :
    ((Except.error f : Checked α) >>= k) = .error f := rfl
@[simp] theorem checked_pure {α : Type} (a : α) : (pure a : Checked α) = .ok a := rfl

@[simp] theorem commit_ok (s t : State) : commit s (.ok t) = .next t := rfl
@[simp] theorem commit_error (s : State) (f : FaultName) : commit s (.error f) = raise f s := rfl

theorem regIdx_ok {i : Byte} (h : i.toNat < 8) : regIdx i = .ok ⟨i.toNat, h⟩ := by simp [regIdx, h]

theorem regIdx_error {i : Byte} (h : 8 ≤ i.toNat) : regIdx i = .error .registerIndexOutOfRange := by
  simp [regIdx, Nat.not_lt.mpr h]

theorem nextPc_ok {w : Nat} {s : State} (h : s.pc.toNat + w < 256) :
    nextPc w s = .ok (BitVec.ofNat 8 (s.pc.toNat + w)) := by simp [nextPc, h]

theorem nextPc_error {w : Nat} {s : State} (h : 256 ≤ s.pc.toNat + w) : nextPc w s = .error .addressOutOfRange := by
  simp [nextPc, Nat.not_lt.mpr h]

/-- The pc after a sequential advance, as a number: no wrap (R16). -/
theorem toNat_nextPc {w : Nat} {s : State} (h : s.pc.toNat + w < 256) :
    (BitVec.ofNat 8 (s.pc.toNat + w)).toNat = s.pc.toNat + w := by
  simp [BitVec.toNat_ofNat]; omega

/-- The advanced pc as byte arithmetic. -/
theorem ofNat_pc_add (w : Nat) (s : State) : BitVec.ofNat 8 (s.pc.toNat + w) = s.pc + BitVec.ofNat 8 w := by
  apply BitVec.eq_of_toNat_eq
  simp [BitVec.toNat_add]

/-- A decremented pointer as a number, when the guard passed (R98). -/
theorem toNat_sub_one {x : Byte} (h : x ≠ 0) : (x - 1).toNat + 1 = x.toNat := by
  have h0 : x.toNat ≠ 0 := fun e => h (BitVec.eq_of_toNat_eq e)
  have := x.isLt
  rw [BitVec.toNat_sub, show (1 : Byte).toNat = 1 from rfl]
  omega

/-- An incremented pointer as a number, when the guard passed (R98). -/
theorem toNat_add_one {x : Byte} (h : x ≠ 255) : (x + 1).toNat = x.toNat + 1 := by
  have h0 : x.toNat ≠ 255 := fun e => h (BitVec.eq_of_toNat_eq e)
  have := x.isLt
  rw [BitVec.toNat_add, show (1 : Byte).toNat = 1 from rfl]
  omega

/-- The machine's stack pointer is register 7 (R12). -/
theorem sp_settings (s : State) : s.sp settings = s.reg 7 := rfl

theorem decrementSp_ok {c : Config} {s : State} (h : s.sp c ≠ 0) :
    decrementSp c s = .ok (s.setSp c (s.sp c - 1)) := if_neg h

theorem decrementSp_error {c : Config} {s : State} (h : s.sp c = 0) : decrementSp c s = .error .stackOverflow :=
  if_pos h

theorem incrementSp_ok {c : Config} {s : State} (h : s.sp c ≠ 255) :
    incrementSp c s = .ok (s.setSp c (s.sp c + 1)) := if_neg h

theorem incrementSp_error {c : Config} {s : State} (h : s.sp c = 255) : incrementSp c s = .error .stackUnderflow :=
  if_pos h

end Sys2Proof.Machine
end

