-- ==== Sys2Proof/Laws/Exec.lean ====
section
/-! SUPPORT. What each instruction can do, said once: it raises a fault, or it has its effect. -/

namespace Sys2Proof.Machine

/-- The effect of an instruction whose checks all pass, with what the checks guarantee. -/
def Effect (c : Config) (i : Instr) (s t : State) : Prop :=
  match i with
  | .hlt => s.pc.toNat + 1 < 256 ∧ t = (s.setPc (BitVec.ofNat 8 (s.pc.toNat + 1))).setStatus .halted
  | .ret => s.sp c ≠ 255 ∧ t = (s.setSp c (s.sp c + 1)).setPc (stackTop c s)
  | .push r => ∃ h : r.toNat < 8, s.sp c ≠ 0 ∧ s.pc.toNat + 2 < 256 ∧
      t = ((s.setSp c (s.sp c - 1)).memWrite (s.sp c - 1) ((s.setSp c (s.sp c - 1)).reg ⟨r.toNat, h⟩)).setPc
        (BitVec.ofNat 8 (s.pc.toNat + 2))
  | .pop r => ∃ h : r.toNat < 8, (s.setReg ⟨r.toNat, h⟩ (stackTop c s)).sp c ≠ 255 ∧ s.pc.toNat + 2 < 256 ∧
      t = ((s.setReg ⟨r.toNat, h⟩ (stackTop c s)).setSp c ((s.setReg ⟨r.toNat, h⟩ (stackTop c s)).sp c + 1)).setPc
        (BitVec.ofNat 8 (s.pc.toNat + 2))
  | .prn r => ∃ h : r.toNat < 8, s.pc.toNat + 2 < 256 ∧
      t = (s.emit (s.reg ⟨r.toNat, h⟩)).setPc (BitVec.ofNat 8 (s.pc.toNat + 2))
  | .call r => ∃ h : r.toNat < 8, s.sp c ≠ 0 ∧ s.pc.toNat + 2 < 256 ∧
      t = ((s.setSp c (s.sp c - 1)).memWrite (s.sp c - 1) (BitVec.ofNat 8 (s.pc.toNat + 2))).setPc
        ((s.setSp c (s.sp c - 1)).reg ⟨r.toNat, h⟩)
  | .jmp r => ∃ h : r.toNat < 8, t = s.setPc (s.reg ⟨r.toNat, h⟩)
  | .jeq r => ∃ h : r.toNat < 8, (s.flags.E = true ∧ t = s.setPc (s.reg ⟨r.toNat, h⟩)) ∨
      (s.flags.E = false ∧ s.pc.toNat + 2 < 256 ∧ t = s.setPc (BitVec.ofNat 8 (s.pc.toNat + 2)))
  | .jne r => ∃ h : r.toNat < 8, (s.flags.E = false ∧ t = s.setPc (s.reg ⟨r.toNat, h⟩)) ∨
      (s.flags.E = true ∧ s.pc.toNat + 2 < 256 ∧ t = s.setPc (BitVec.ofNat 8 (s.pc.toNat + 2)))
  | .ldi d v => ∃ h : d.toNat < 8, s.pc.toNat + 3 < 256 ∧
      t = (s.setReg ⟨d.toNat, h⟩ v).setPc (BitVec.ofNat 8 (s.pc.toNat + 3))
  | .mult a b => ∃ (ha : a.toNat < 8) (hb : b.toNat < 8), s.pc.toNat + 3 < 256 ∧
      t = (s.setReg ⟨a.toNat, ha⟩ (aluMult ⟨a.toNat, ha⟩ ⟨b.toNat, hb⟩ s)).setPc (BitVec.ofNat 8 (s.pc.toNat + 3))
  | .cmp a b => ∃ (ha : a.toNat < 8) (hb : b.toNat < 8), s.pc.toNat + 3 < 256 ∧
      t = (aluCmp ⟨a.toNat, ha⟩ ⟨b.toNat, hb⟩ s).setPc (BitVec.ofNat 8 (s.pc.toNat + 3))

/-- An instruction whose checks pass has its effect, and nothing else decides it. -/
theorem execWith_of_effect {c : Config} {i : Instr} {s t : State} (h : Effect c i s t) : execWith c i s = .next t := by
  cases i with
  | hlt => obtain ⟨hp, rfl⟩ := h; simp [execWith, execHlt, nextPc_ok hp]
  | ret => obtain ⟨hs, rfl⟩ := h; simp [execWith, execRetWith, incrementSp_ok hs]
  | push r =>
    obtain ⟨h, hs, hp, rfl⟩ := h
    simp [execWith, execPushWith, regIdx_ok h, decrementSp_ok hs, nextPc_ok hp]
  | pop r =>
    obtain ⟨h, hs, hp, rfl⟩ := h
    simp [execWith, execPopWith, regIdx_ok h, incrementSp_ok hs, nextPc_ok hp]
  | prn r => obtain ⟨h, hp, rfl⟩ := h; simp [execWith, execPrn, regIdx_ok h, nextPc_ok hp]
  | call r =>
    obtain ⟨h, hs, hp, rfl⟩ := h
    simp [execWith, execCallWith, regIdx_ok h, decrementSp_ok hs, nextPc_ok hp]
  | jmp r => obtain ⟨h, rfl⟩ := h; simp [execWith, execJmp, jumpIf, regIdx_ok h]
  | jeq r => obtain ⟨h, ⟨he, rfl⟩ | ⟨he, hp, rfl⟩⟩ := h <;> simp [execWith, execJeq, jumpIf, regIdx_ok h, nextPc_ok, *]
  | jne r => obtain ⟨h, ⟨he, rfl⟩ | ⟨he, hp, rfl⟩⟩ := h <;> simp [execWith, execJne, jumpIf, regIdx_ok h, nextPc_ok, *]
  | ldi d v => obtain ⟨h, hp, rfl⟩ := h; simp [execWith, execLdi, regIdx_ok h, nextPc_ok hp]
  | mult a b => obtain ⟨ha, hb, hp, rfl⟩ := h; simp [execWith, execMult, regIdx_ok ha, regIdx_ok hb, nextPc_ok hp]
  | cmp a b => obtain ⟨ha, hb, hp, rfl⟩ := h; simp [execWith, execCmp, regIdx_ok ha, regIdx_ok hb, nextPc_ok hp]

/-- The fault an instruction raises, or its effect: a check either names a fault or passes. -/
theorem execWith_cases (c : Config) (i : Instr) (s : State) :
    (∃ f, execWith c i s = raise f s) ∨ ∃ t, execWith c i s = .next t ∧ Effect c i s t := by
  have reg (r : Byte) : (∃ h : r.toNat < 8, regIdx r = .ok ⟨r.toNat, h⟩) ∨ regIdx r = .error .registerIndexOutOfRange := by
    by_cases h : r.toNat < 8
    · exact .inl ⟨h, regIdx_ok h⟩
    · exact .inr (regIdx_error (by omega))
  have adv (w : Nat) : (s.pc.toNat + w < 256 ∧ nextPc w s = .ok (BitVec.ofNat 8 (s.pc.toNat + w))) ∨
      nextPc w s = .error .addressOutOfRange := by
    by_cases h : s.pc.toNat + w < 256
    · exact .inl ⟨h, nextPc_ok h⟩
    · exact .inr (nextPc_error (by omega))
  have dec : (s.sp c ≠ 0 ∧ decrementSp c s = .ok (s.setSp c (s.sp c - 1))) ∨ decrementSp c s = .error .stackOverflow := by
    by_cases h : s.sp c = 0
    · exact .inr (decrementSp_error h)
    · exact .inl ⟨h, decrementSp_ok h⟩
  have inc (u : State) : (u.sp c ≠ 255 ∧ incrementSp c u = .ok (u.setSp c (u.sp c + 1))) ∨
      incrementSp c u = .error .stackUnderflow := by
    by_cases h : u.sp c = 255
    · exact .inr (incrementSp_error h)
    · exact .inl ⟨h, incrementSp_ok h⟩
  cases i with
  | hlt =>
    rcases adv 1 with ⟨hp, _⟩ | e
    · exact .inr ⟨_, execWith_of_effect (i := .hlt) ⟨hp, rfl⟩, hp, rfl⟩
    · exact .inl ⟨_, by simp [execWith, execHlt, e]; rfl⟩
  | ret =>
    rcases inc s with ⟨hs, _⟩ | e
    · exact .inr ⟨_, execWith_of_effect (i := .ret) ⟨hs, rfl⟩, hs, rfl⟩
    · exact .inl ⟨_, by simp [execWith, execRetWith, e]; rfl⟩
  | push r =>
    rcases reg r with ⟨h, er⟩ | er
    · rcases dec with ⟨hs, es⟩ | es
      · rcases adv 2 with ⟨hp, _⟩ | ep
        · exact .inr ⟨_, execWith_of_effect (i := .push r) ⟨h, hs, hp, rfl⟩, h, hs, hp, rfl⟩
        · exact .inl ⟨_, by simp [execWith, execPushWith, er, es, ep]; rfl⟩
      · exact .inl ⟨_, by simp [execWith, execPushWith, er, es]; rfl⟩
    · exact .inl ⟨_, by simp [execWith, execPushWith, er]; rfl⟩
  | pop r =>
    rcases reg r with ⟨h, er⟩ | er
    · rcases inc (s.setReg ⟨r.toNat, h⟩ (stackTop c s)) with ⟨hs, es⟩ | es
      · rcases adv 2 with ⟨hp, _⟩ | ep
        · exact .inr ⟨_, execWith_of_effect (i := .pop r) ⟨h, hs, hp, rfl⟩, h, hs, hp, rfl⟩
        · exact .inl ⟨_, by simp [execWith, execPopWith, er, es, ep]; rfl⟩
      · exact .inl ⟨_, by simp [execWith, execPopWith, er, es]; rfl⟩
    · exact .inl ⟨_, by simp [execWith, execPopWith, er]; rfl⟩
  | prn r =>
    rcases reg r with ⟨h, er⟩ | er
    · rcases adv 2 with ⟨hp, _⟩ | ep
      · exact .inr ⟨_, execWith_of_effect (i := .prn r) ⟨h, hp, rfl⟩, h, hp, rfl⟩
      · exact .inl ⟨_, by simp [execWith, execPrn, er, ep]; rfl⟩
    · exact .inl ⟨_, by simp [execWith, execPrn, er]; rfl⟩
  | call r =>
    rcases reg r with ⟨h, er⟩ | er
    · rcases dec with ⟨hs, es⟩ | es
      · rcases adv 2 with ⟨hp, _⟩ | ep
        · exact .inr ⟨_, execWith_of_effect (i := .call r) ⟨h, hs, hp, rfl⟩, h, hs, hp, rfl⟩
        · exact .inl ⟨_, by simp [execWith, execCallWith, er, es, ep]; rfl⟩
      · exact .inl ⟨_, by simp [execWith, execCallWith, er, es]; rfl⟩
    · exact .inl ⟨_, by simp [execWith, execCallWith, er]; rfl⟩
  | jmp r =>
    rcases reg r with ⟨h, er⟩ | er
    · exact .inr ⟨_, execWith_of_effect (i := .jmp r) ⟨h, rfl⟩, h, rfl⟩
    · exact .inl ⟨_, by simp [execWith, execJmp, jumpIf, er]; rfl⟩
  | jeq r =>
    rcases reg r with ⟨h, er⟩ | er
    · cases he : s.flags.E with
      | true => exact .inr ⟨_, execWith_of_effect (i := .jeq r) ⟨h, .inl ⟨he, rfl⟩⟩, h, .inl ⟨he, rfl⟩⟩
      | false =>
        rcases adv 2 with ⟨hp, _⟩ | ep
        · exact .inr ⟨_, execWith_of_effect (i := .jeq r) ⟨h, .inr ⟨he, hp, rfl⟩⟩, h, .inr ⟨he, hp, rfl⟩⟩
        · exact .inl ⟨_, by simp [execWith, execJeq, jumpIf, er, ep, he]; rfl⟩
    · exact .inl ⟨_, by simp [execWith, execJeq, jumpIf, er]; rfl⟩
  | jne r =>
    rcases reg r with ⟨h, er⟩ | er
    · cases he : s.flags.E with
      | false => exact .inr ⟨_, execWith_of_effect (i := .jne r) ⟨h, .inl ⟨he, rfl⟩⟩, h, .inl ⟨he, rfl⟩⟩
      | true =>
        rcases adv 2 with ⟨hp, _⟩ | ep
        · exact .inr ⟨_, execWith_of_effect (i := .jne r) ⟨h, .inr ⟨he, hp, rfl⟩⟩, h, .inr ⟨he, hp, rfl⟩⟩
        · exact .inl ⟨_, by simp [execWith, execJne, jumpIf, er, ep, he]; rfl⟩
    · exact .inl ⟨_, by simp [execWith, execJne, jumpIf, er]; rfl⟩
  | ldi d v =>
    rcases reg d with ⟨h, er⟩ | er
    · rcases adv 3 with ⟨hp, _⟩ | ep
      · exact .inr ⟨_, execWith_of_effect (i := .ldi d v) ⟨h, hp, rfl⟩, h, hp, rfl⟩
      · exact .inl ⟨_, by simp [execWith, execLdi, er, ep]; rfl⟩
    · exact .inl ⟨_, by simp [execWith, execLdi, er]; rfl⟩
  | mult a b =>
    rcases reg a with ⟨ha, ea⟩ | ea
    · rcases reg b with ⟨hb, eb⟩ | eb
      · rcases adv 3 with ⟨hp, _⟩ | ep
        · exact .inr ⟨_, execWith_of_effect (i := .mult a b) ⟨ha, hb, hp, rfl⟩, ha, hb, hp, rfl⟩
        · exact .inl ⟨_, by simp [execWith, execMult, ea, eb, ep]; rfl⟩
      · exact .inl ⟨_, by simp [execWith, execMult, ea, eb]; rfl⟩
    · exact .inl ⟨_, by simp [execWith, execMult, ea]; rfl⟩
  | cmp a b =>
    rcases reg a with ⟨ha, ea⟩ | ea
    · rcases reg b with ⟨hb, eb⟩ | eb
      · rcases adv 3 with ⟨hp, _⟩ | ep
        · exact .inr ⟨_, execWith_of_effect (i := .cmp a b) ⟨ha, hb, hp, rfl⟩, ha, hb, hp, rfl⟩
        · exact .inl ⟨_, by simp [execWith, execCmp, ea, eb, ep]; rfl⟩
      · exact .inl ⟨_, by simp [execWith, execCmp, ea, eb]; rfl⟩
    · exact .inl ⟨_, by simp [execWith, execCmp, ea]; rfl⟩

/-- The dispatched handlers are the parametric ones at the machine's settings. -/
theorem exec_eq_execWith (i : Instr) (s : State) : exec i s = execWith settings i s := by cases i <;> rfl

theorem exec_of_effect {i : Instr} {s t : State} (h : Effect settings i s t) : exec i s = .next t := by
  rw [exec_eq_execWith]; exact execWith_of_effect h

theorem exec_cases (i : Instr) (s : State) :
    (∃ f, exec i s = raise f s) ∨ ∃ t, exec i s = .next t ∧ Effect settings i s t := by
  rw [exec_eq_execWith]; exact execWith_cases settings i s

/-- The ADD form: a fault, or the sum in the first register and the pc advanced (D18). -/
theorem execAddForm_cases (a b : Byte) (s : State) :
    (∃ f, execAddForm a b s = raise f s) ∨
    ∃ (ha : a.toNat < 8) (hb : b.toNat < 8), s.pc.toNat + 3 < 256 ∧ execAddForm a b s =
      .next ((aluAdd ⟨a.toNat, ha⟩ ⟨b.toNat, hb⟩ s).setPc (BitVec.ofNat 8 (s.pc.toNat + 3))) := by
  by_cases ha : a.toNat < 8
  · by_cases hb : b.toNat < 8
    · by_cases hp : s.pc.toNat + 3 < 256
      · exact .inr ⟨ha, hb, hp, by simp [execAddForm, regIdx_ok ha, regIdx_ok hb, nextPc_ok hp]⟩
      · exact .inl ⟨_, by simp [execAddForm, regIdx_ok ha, regIdx_ok hb, nextPc_error (Nat.not_lt.mp hp)]; rfl⟩
    · exact .inl ⟨_, by simp [execAddForm, regIdx_ok ha, regIdx_error (Nat.not_lt.mp hb)]; rfl⟩
  · exact .inl ⟨_, by simp [execAddForm, regIdx_error (Nat.not_lt.mp ha)]; rfl⟩

end Sys2Proof.Machine
end

