-- ==== Sys2Proof/Laws/Memory.lean ====
section
/-! SUPPORT. The laws of memory: a read after a write, and that every operation keeps the canonical form. -/

namespace Sys2Proof.Machine

theorem Memory.read_erase (m : Memory) (a b : Nat) : read (erase m a) b = if b = a then 0 else read m b := by
  induction m with
  | nil => simp [erase, read]
  | cons cell m ih =>
    obtain ⟨x, w⟩ := cell
    simp only [erase, List.filter_cons] at ih ⊢
    by_cases hx : x = a
    · subst hx; simp only [bne_self_eq_false, Bool.false_eq_true, if_false, ih, read]
      split <;> simp_all
    · simp only [bne_iff_ne, ne_eq, hx, not_false_eq_true, if_true, read, ih]
      by_cases hb : b = x
      · subst hb; simp [hx]
      · simp [hb]

theorem Memory.read_insert {m : Memory} {a : Nat} (v : Byte) (h : ∀ c ∈ m, c.1 ≠ a) (b : Nat) :
    read (insert a v m) b = if b = a then v else read m b := by
  induction m with
  | nil => simp [insert, read]
  | cons cell m ih =>
    obtain ⟨x, w⟩ := cell
    have hx : x ≠ a := h (x, w) (by simp)
    have ih := ih (fun c hc => h c (by simp [hc]))
    simp only [insert]
    split
    · simp [read]
    · simp only [read, ih]
      by_cases hb : b = x
      · subst hb; simp [hx]
      · simp [hb]

theorem Memory.erase_ne {m : Memory} {a : Nat} : ∀ c ∈ erase m a, c.1 ≠ a := by
  intro c hc
  simpa [erase] using (List.mem_filter.mp hc).2

/-- The byte read after a write: the one written at that address, the old one everywhere else (R33). -/
@[simp] theorem Memory.read_write (m : Memory) (a : Nat) (v : Byte) (b : Nat) :
    read (write m a v) b = if b = a then v else read m b := by
  unfold write
  split
  · next h => rw [read_erase, h]
  · rw [read_insert v erase_ne, read_erase]; split <;> rfl

theorem Memory.mem_insert {m : Memory} {a : Nat} {v : Byte} {c : Host.Cell} : c ∈ insert a v m ↔ c = (a, v) ∨ c ∈ m := by
  induction m with
  | nil => simp [insert]
  | cons cell m ih =>
    obtain ⟨x, w⟩ := cell
    simp only [insert]
    split
    · simp
    · simp only [List.mem_cons, ih]
      constructor <;> rintro (h | h | h) <;> simp [h]

theorem Memory.pairwise_insert {m : Memory} {a : Nat} {v : Byte} (h : m.Pairwise (fun c d => c.1 < d.1))
    (ha : ∀ c ∈ m, c.1 ≠ a) : (insert a v m).Pairwise (fun c d => c.1 < d.1) := by
  induction m with
  | nil => simp [insert]
  | cons cell m ih =>
    obtain ⟨x, w⟩ := cell
    have ⟨hx, hm⟩ := List.pairwise_cons.mp h
    have hne : x ≠ a := ha (x, w) (by simp)
    simp only [insert]
    split
    · next hlt =>
      refine List.pairwise_cons.mpr ⟨fun c hc => ?_, h⟩
      rcases List.mem_cons.mp hc with rfl | hc
      · exact hlt
      · exact Nat.lt_trans hlt (hx c hc)
    · next hge =>
      refine List.pairwise_cons.mpr ⟨fun c hc => ?_, ih hm (fun c hc => ha c (by simp [hc]))⟩
      rcases mem_insert.mp hc with rfl | hc
      · show x < a
        omega
      · exact hx c hc

/-- The canonical form as a proposition. -/
theorem Memory.wf_iff (m : Memory) :
    wf m = true ↔ (∀ c ∈ m, c.1 < 256 ∧ c.2 ≠ 0) ∧ m.Pairwise (fun c d => c.1 < d.1) := by
  simp [wf, memCells]

/-- The reset memory, with nothing listed, has it. -/
theorem Memory.wf_nil : wf [] = true := rfl

/-- A write keeps the canonical form. -/
theorem Memory.wf_write {m : Memory} {a : Nat} {v : Byte} (h : wf m = true) (ha : a < 256) : wf (write m a v) = true := by
  rw [wf_iff] at h ⊢
  have hs : ∀ c ∈ erase m a, c ∈ m := fun c hc => (List.mem_filter.mp hc).1
  have hp : (erase m a).Pairwise (fun c d => c.1 < d.1) := h.2.filter _
  unfold write
  split
  · exact ⟨fun c hc => h.1 c (hs c hc), hp⟩
  · next hv =>
    refine ⟨fun c hc => ?_, pairwise_insert hp erase_ne⟩
    rcases mem_insert.mp hc with rfl | hc
    · exact ⟨ha, hv⟩
    · exact h.1 c (hs c hc)

/-- Writing a list of bytes keeps the canonical form. -/
theorem Memory.wf_writeAll {m : Memory} {a : Nat} {vs : List Byte} (h : wf m = true) (ha : a + vs.length ≤ 256) :
    wf (writeAll m a vs) = true := by
  induction vs generalizing m a with
  | nil => exact h
  | cons v vs ih =>
    simp only [List.length_cons] at ha
    exact ih (wf_write h (by omega)) (by omega)

/-- What a cell holds after a list of bytes was written. -/
theorem Memory.read_writeAll (m : Memory) (a : Nat) (vs : List Byte) (b : Nat) :
    read (writeAll m a vs) b = if h : a ≤ b ∧ b < a + vs.length then vs[b - a]'(by omega) else read m b := by
  induction vs generalizing m a with
  | nil =>
    have : ¬(a ≤ b ∧ b < a + ([] : List Byte).length) := by simp
    simp only [writeAll, this, dite_false]
  | cons v vs ih =>
    simp only [writeAll, ih, read_write, List.length_cons]
    by_cases hb : b = a
    · subst hb
      have after : ¬(b + 1 ≤ b ∧ b < b + 1 + vs.length) := by omega
      have here : b ≤ b ∧ b < b + (vs.length + 1) := by omega
      rw [dif_neg after, dif_pos here, if_pos rfl]
      simp
    · by_cases hr : a + 1 ≤ b ∧ b < a + 1 + vs.length
      · have h2 : a ≤ b ∧ b < a + (vs.length + 1) := by omega
        have e : b - a = (b - (a + 1)) + 1 := by omega
        simp only [hr, h2, and_self, dite_true, e, List.getElem_cons_succ]
      · have h2 : ¬(a ≤ b ∧ b < a + (vs.length + 1)) := by omega
        simp only [hr, h2, dite_false, hb, if_false]

/-- A cell read after `MemWrite`. -/
@[simp] theorem memRead_memWrite (s : State) (a v b : Byte) :
    (s.memWrite a v).memRead b = if b = a then v else s.memRead b := by
  simp [State.memRead, BitVec.toNat_inj]

/-- Storing bytes at the program counter keeps the canonical form. -/
theorem wf_storeAtPc {s : State} (bytes : List Byte) (h : s.mem.wf = true) : (s.storeAtPc bytes).mem.wf = true := by
  have hp := s.pc.isLt
  refine Memory.wf_writeAll h ?_
  rw [List.length_take, show memCells = 256 from rfl]
  omega

/-- A load keeps the canonical form. -/
theorem wf_load {s : State} (prog : List Byte) (h : s.mem.wf = true) : (load prog s).mem.wf = true := by
  unfold load
  split
  · next hl => exact Memory.wf_writeAll h (by simpa using hl)
  · exact h

end Sys2Proof.Machine
end

