-- ==== Sys2Proof/Laws/PerInstr.lean ====
section
/-! SUPPORT. Statements about every instruction as syntax, one lemma per constructor. -/

namespace Sys2Proof.Laws.EncodedLength

/-- An instruction's bytes are its opcode and its operands, as many as the opcode's width says: one, two or three (R50). -/
def Statement (i : Instr) : Prop :=
  (encode i).length = i.opcode.width ∧ 1 ≤ i.opcode.width ∧ i.opcode.width ≤ 3 ∧ (encode i).head? = some i.opcode.value

theorem of_opcode {i : Instr} (h : (encode i).length = i.opcode.width) : Statement i :=
  have width (k : Opcode) : 1 ≤ k.width ∧ k.width ≤ 3 := by cases k <;> decide
  ⟨h, (width _).1, (width _).2, rfl⟩

theorem hlt : Statement .hlt := of_opcode rfl
theorem ret : Statement .ret := of_opcode rfl
theorem push (r : Byte) : Statement (.push r) := of_opcode rfl
theorem pop (r : Byte) : Statement (.pop r) := of_opcode rfl
theorem prn (r : Byte) : Statement (.prn r) := of_opcode rfl
theorem call (r : Byte) : Statement (.call r) := of_opcode rfl
theorem jmp (r : Byte) : Statement (.jmp r) := of_opcode rfl
theorem jeq (r : Byte) : Statement (.jeq r) := of_opcode rfl
theorem jne (r : Byte) : Statement (.jne r) := of_opcode rfl
theorem ldi (d v : Byte) : Statement (.ldi d v) := of_opcode rfl
theorem mult (a b : Byte) : Statement (.mult a b) := of_opcode rfl
theorem cmp (a b : Byte) : Statement (.cmp a b) := of_opcode rfl

end Sys2Proof.Laws.EncodedLength
end

