-- ==== Sys2Proof/Laws/Step.lean ====
section
/-! SUPPORT. What a step can do, said once: no step outside Running, a fault, a handler's effect, or a skipped byte. -/

namespace Sys2Proof.Machine

/-- `step` is the parametric step at the machine's settings. -/
theorem step_eq_stepWith (s : State) : step s = stepWith settings s := by
  have : exec = execWith settings := funext fun i => funext fun u => exec_eq_execWith i u
  simp only [step, stepWith, this]

theorem whenRunning_running {s : State} (h : s.status = .running) (r : Result) : whenRunning s r = r := by
  simp [whenRunning, h]

/-- Outside Running there is no next state (R70). -/
theorem stepWith_ended {c : Config} {s : State} (h : s.status ≠ .running) : ∃ f, stepWith c s = .fault f := by
  unfold stepWith whenRunning
  split
  · next e => exact absurd e h
  all_goals exact ⟨_, rfl⟩

/-- What a step from Running answers. -/
inductive StepOutcome (c : Config) (s : State) : State → Prop where
  /-- a fault of R120 was raised: the state is the old one but for its status -/
  | raised (f : FaultName) : StepOutcome c s (s.setStatus (.faulted f))
  /-- one of the twelve instructions stood at the pc and had its effect -/
  | executed (i : Instr) (t : State) (hd : decodeWith c (fetchBytes s) = .instr i) (h : Effect c i s t) : StepOutcome c s t
  /-- the instruction of the parameter ADD_OPCODE stood at the pc and had its effect -/
  | added (a b : Byte) (ha : a.toNat < 8) (hb : b.toNat < 8) (hd : decodeWith c (fetchBytes s) = .addForm a b)
      (hp : s.pc.toNat + 3 < 256) :
      StepOutcome c s ((aluAdd ⟨a.toNat, ha⟩ ⟨b.toNat, hb⟩ s).setPc (BitVec.ofNat 8 (s.pc.toNat + 3)))
  /-- an unknown opcode was skipped under the policy `skip1` -/
  | skipped (op : Byte) (hd : decodeWith c (fetchBytes s) = .rejected (.unknownOpcode op)) (hc : c.unknownOpcode = .skip1)
      (hp : s.pc.toNat + 1 < 256) : StepOutcome c s (s.setPc (BitVec.ofNat 8 (s.pc.toNat + 1)))

/-- From Running a step always answers a next state, one of the above. -/
theorem stepWith_cases (c : Config) {s : State} (hs : s.status = .running) : ∃ t, stepWith c s = .next t ∧ StepOutcome c s t := by
  rw [stepWith, whenRunning_running hs, cycle]
  cases hd : decodeWith c (fetchBytes s) with
  | instr i =>
    rcases execWith_cases c i s with ⟨f, h⟩ | ⟨t, h, he⟩
    · exact ⟨_, h, .raised f⟩
    · exact ⟨t, h, .executed i t hd he⟩
  | addForm a b =>
    rcases execAddForm_cases a b s with ⟨f, h⟩ | ⟨ha, hb, hp, h⟩
    · exact ⟨_, h, .raised f⟩
    · exact ⟨_, h, .added a b ha hb hd hp⟩
  | rejected r =>
    cases r with
    | noByte => exact ⟨_, rfl, .raised .addressOutOfRange⟩
    | operandMissing => exact ⟨_, rfl, .raised .addressOutOfRange⟩
    | unknownOpcode op =>
      cases hc : c.unknownOpcode with
      | fault => exact ⟨_, by simp only [execRejected, unknownOpcode, hc]; rfl, .raised .illegalInstruction⟩
      | skip1 =>
        by_cases hp : s.pc.toNat + 1 < 256
        · exact ⟨_, by simp [execRejected, unknownOpcode, hc, nextPc_ok hp], .skipped op hd hc hp⟩
        · refine ⟨_, ?_, .raised .addressOutOfRange⟩
          simp [execRejected, unknownOpcode, hc, nextPc_error (Nat.not_lt.mp hp), raise]

/-- The inversion of a step: its state was Running, and its outcome is one of the above. -/
theorem stepWith_inv {c : Config} {s t : State} (h : stepWith c s = .next t) : s.status = .running ∧ StepOutcome c s t := by
  by_cases hs : s.status = .running
  · obtain ⟨u, hu, ho⟩ := stepWith_cases c hs
    rw [hu] at h
    cases h
    exact ⟨hs, ho⟩
  · obtain ⟨f, hf⟩ := stepWith_ended (c := c) hs
    rw [hf] at h
    cases h

theorem step_inv {s t : State} (h : step s = .next t) : s.status = .running ∧ StepOutcome settings s t :=
  stepWith_inv (step_eq_stepWith s ▸ h)

/-- A property that every step from Running keeps holds at the end of every run from a state that has it. -/
theorem runWith_induction {c : Config} {P : State → Prop} (hstep : ∀ s t, P s → stepWith c s = .next t → P t) :
    ∀ (k : Nat) (s : State), P s → P (runWith c k s) := by
  intro k
  induction k with
  | zero => exact fun s h => h
  | succ k ih =>
    intro s h
    simp only [runWith]
    split
    · next t e => exact ih t (hstep s t h e)
    · exact h
    · exact h

end Sys2Proof.Machine
end

