-- ==== Sys2Proof/Tests/Slice0.lean ====
section
/-! SUPPORT. Tests. A test's expected result is a vector of spec/95_test_vectors.md (V.., A.., M.., S..) or a word of
spec/30_encoding.md R56, named beside it; the witnesses show that the hypotheses of each obligation can be met. -/

namespace Sys2Proof.Tests

open Sys2Proof.Machine

/-- The reset state with the program counter at `p` and `bytes` there. -/
def codeAt (p : Byte) (bytes : List Byte) : State := (State.reset.setPc p).storeAtPc bytes

/-- The reset state with the program counter at `p` and the stack pointer `v`. -/
def corner (p v : Byte) : State := (State.reset.setPc p).setReg 7 v

/-- The next state, if there is one. -/
def nextState : Result → Option State
  | .next t => some t
  | .fault _ => none
  | .refused _ => none

/-- A fault of R120 on `s`: only the status changes. -/
def faulted (f : FaultName) (s : State) : Option State := some { s with status := .faulted f }

/-! ## WellFormed refuses each ill-formed operand (R53, R123) -/

theorem test_wf_one_operand : [Instr.push 8, .pop 8, .prn 8, .call 8, .jmp 8, .jeq 8, .jne 8, .push 255].any Instr.wellFormed = false := by decide
theorem test_wf_ldi : (Instr.ldi 8 0).wellFormed = false ∧ (Instr.ldi 7 200).wellFormed = true := by decide
theorem test_wf_mult : (Instr.mult 8 0).wellFormed = false ∧ (Instr.mult 0 8).wellFormed = false := by decide
theorem test_wf_cmp : (Instr.cmp 8 0).wellFormed = false ∧ (Instr.cmp 0 8).wellFormed = false := by decide
theorem test_wf_accepts : [Instr.hlt, .ret, .push 7, .pop 7, .prn 7, .call 7, .jmp 7, .jeq 7, .jne 7, .ldi 7 255, .mult 7 7, .cmp 7 7].all Instr.wellFormed = true := by decide

/-! ## Every constructor's word, written out from R56 and R51 -/

theorem test_decode_hlt : (decode [0b00000001]).toOption = some (.hlt, []) := by decide
theorem test_decode_ret : (decode [0b00010001]).toOption = some (.ret, []) := by decide
theorem test_decode_push : (decode [0b01000101, 3]).toOption = some (.push 3, []) := by decide
theorem test_decode_pop : (decode [0b01000110, 3]).toOption = some (.pop 3, []) := by decide
theorem test_decode_prn : (decode [0b01000111, 3]).toOption = some (.prn 3, []) := by decide
theorem test_decode_call : (decode [0b01010000, 3]).toOption = some (.call 3, []) := by decide
theorem test_decode_jmp : (decode [0b01010100, 3]).toOption = some (.jmp 3, []) := by decide
theorem test_decode_jeq : (decode [0b01010101, 3]).toOption = some (.jeq 3, []) := by decide
theorem test_decode_jne : (decode [0b01010110, 3]).toOption = some (.jne 3, []) := by decide
theorem test_decode_ldi : (decode [0b10000010, 1, 9]).toOption = some (.ldi 1 9, []) := by decide
theorem test_decode_mult : (decode [0b10100010, 1, 2]).toOption = some (.mult 1 2, []) := by decide
theorem test_decode_cmp : (decode [0b10100111, 1, 2]).toOption = some (.cmp 1 2, []) := by decide
/-- R57: 0 and 160 are unknown. R74: a missing operand byte. -/
theorem test_decode_rejects : (decode [0]).toOption = none ∧ (decode [160, 0, 1]).toOption = none ∧ (decode [130, 0]).toOption = none := by decide
/-- The numbering of the opcode table: the first byte is the least significant (R34). -/
theorem test_decode_table_word : decodeTableWord 24 0x090182 = some (.ldi 1 9) ∧ decodeTableWord 8 69 = some (.push 0) := by decide

/-! ## One step of each instruction -/

/-- V10 and S1: LDI R0, 8. -/
theorem test_ldi : nextState (step (codeAt 0 [130, 0, 8])) = some (((codeAt 0 [130, 0, 8]).setReg 0 8).setPc 3) := by decide
/-- V16: the next pc would be 256. -/
theorem test_ldi_top : nextState (step (codeAt 253 [130, 0, 1])) = faulted .addressOutOfRange (codeAt 253 [130, 0, 1]) := by decide
/-- V26: PRN R7 emits the stack pointer. -/
theorem test_prn : nextState (step (codeAt 0 [71, 7])) = some (((codeAt 0 [71, 7]).emit 244).setPc 2) := by decide
/-- V27. -/
theorem test_prn_bad_index : nextState (step (codeAt 0 [71, 8])) = faulted .registerIndexOutOfRange (codeAt 0 [71, 8]) := by decide
/-- V48: the destination is the first operand. -/
theorem test_mult : nextState (step (((codeAt 0 [162, 1, 0]).setReg 0 129).setReg 1 2)) = some ((((codeAt 0 [162, 1, 0]).setReg 0 129).setReg 1 2).setPc 3) := by decide
/-- V39: the square of 12. -/
theorem test_mult_square : (nextState (step ((codeAt 0 [162, 3, 3]).setReg 3 12))).map (fun t => t.reg 3) = some 144 := by decide
/-- V58: unsigned, 255 is greater than 1. -/
theorem test_cmp_unsigned : (nextState (step (((codeAt 0 [167, 0, 1]).setReg 0 255).setReg 1 1))).map State.flags = some ⟨false, true, false⟩ := by decide
/-- V61: a register against itself, the old L cleared. -/
theorem test_cmp_equal : (nextState (step ((codeAt 0 [167, 4, 4]).setFlags ⟨false, false, true⟩))).map State.flags = some ⟨true, false, false⟩ := by decide
/-- V70. -/
theorem test_push : nextState (step ((codeAt 3 [69, 0]).setReg 0 42)) = some (((((codeAt 3 [69, 0]).setReg 0 42).setReg 7 243).memWrite 243 42).setPc 5) := by decide
/-- V73: pushing the stack pointer stores the decremented value. -/
theorem test_push_sp : (nextState (step (codeAt 0 [69, 7]))).map (fun t => (t.reg 7, t.memRead 243)) = some (243, 243) := by decide
/-- V85. -/
theorem test_pop : nextState (step (((codeAt 5 [70, 1]).setReg 7 243).memWrite 243 42)) = some (((((codeAt 5 [70, 1]).setReg 7 243).memWrite 243 42).setReg 1 42).setReg 7 244 |>.setPc 7) := by decide
/-- V91: the increment applies to the loaded byte. -/
theorem test_pop_sp : (nextState (step (((codeAt 0 [70, 7]).setReg 7 255).memWrite 255 3))).map (fun t => t.reg 7) = some 4 := by decide
/-- V100. -/
theorem test_call : nextState (step ((codeAt 6 [80, 1]).setReg 1 9)) = some (((((codeAt 6 [80, 1]).setReg 1 9).setReg 7 243).memWrite 243 8).setPc 9) := by decide
/-- V101: the target is read after the push. -/
theorem test_call_sp : (nextState (step (codeAt 6 [80, 7]))).map State.pc = some 243 := by decide
/-- V110. -/
theorem test_ret : nextState (step (((codeAt 14 [17]).setReg 7 243).memWrite 243 8)) = some (((((codeAt 14 [17]).setReg 7 243).memWrite 243 8).setReg 7 244).setPc 8) := by decide
/-- V112. -/
theorem test_ret_underflow : nextState (step ((codeAt 14 [17]).setReg 7 255)) = faulted .stackUnderflow ((codeAt 14 [17]).setReg 7 255) := by decide
/-- V121: a JMP at 254 is legal. -/
theorem test_jmp : (nextState (step (codeAt 254 [84, 2]))).map State.pc = some 0 := by decide
/-- V122: its operand byte would be at 256. -/
theorem test_jmp_top : nextState (step (codeAt 255 [84])) = faulted .addressOutOfRange (codeAt 255 [84]) := by decide
/-- V130 and V133. -/
theorem test_jeq : (nextState (step (((codeAt 9 [85, 2]).setReg 2 19).setFlags ⟨true, false, false⟩))).map State.pc = some 19 ∧
    (nextState (step ((codeAt 9 [85, 2]).setReg 2 19))).map State.pc = some 11 := by decide
/-- V136: the index is checked though the jump is not taken. -/
theorem test_jeq_bad_index : nextState (step (codeAt 9 [85, 9])) = faulted .registerIndexOutOfRange (codeAt 9 [85, 9]) := by decide
/-- V140 and V141. -/
theorem test_jne : (nextState (step ((codeAt 14 [86, 2]).setReg 2 6))).map State.pc = some 6 ∧
    (nextState (step (((codeAt 14 [86, 2]).setReg 2 6).setFlags ⟨true, false, false⟩))).map State.pc = some 16 := by decide
/-- V144. -/
theorem test_jne_top : nextState (exec (.jne 2) ((State.reset.setPc 254).setFlags ⟨true, false, false⟩)) = faulted .addressOutOfRange ((State.reset.setPc 254).setFlags ⟨true, false, false⟩) := by decide
/-- V150. -/
theorem test_hlt : nextState (step (codeAt 11 [1])) = some (((codeAt 11 [1]).setPc 12).setStatus .halted) := by decide
/-- V152. -/
theorem test_hlt_top : nextState (step (codeAt 255 [1])) = faulted .addressOutOfRange (codeAt 255 [1]) := by decide

/-! ## The unknown opcode, fault priority, the ALU, the load, parameters -/

/-- V1 and V2: the two policies. -/
theorem test_unknown_opcode : nextState (step State.reset) = faulted .illegalInstruction State.reset ∧
    nextState (stepWith { unknownOpcode := .skip1 } State.reset) = some (State.reset.setPc 1) := by decide
/-- V77 and V78: the order of the checks. -/
theorem test_fault_priority : nextState (step ((codeAt 254 [69, 0]).setReg 7 0)) = faulted .stackOverflow ((codeAt 254 [69, 0]).setReg 7 0) ∧
    nextState (step ((codeAt 254 [69, 9]).setReg 7 0)) = faulted .registerIndexOutOfRange ((codeAt 254 [69, 9]).setReg 7 0) := by decide
/-- A4 (129 + 129 is 2) and A8 (255 * 255 is 1). -/
theorem test_alu : (alu .add 2 2 (State.reset.setReg 2 129)).toOption = some (State.reset.setReg 2 2, none) ∧
    (alu .mult 0 1 ((State.reset.setReg 0 255).setReg 1 255)).toOption.map Prod.snd = some (some 1) := by decide
/-- M4: one step, Halted, pc 1. -/
theorem test_launch : (nextState (step (launch [1]))).map (fun t => (t.status, t.pc)) = some (.halted, 1) := by decide
/-- D18 and A1: with ADD_OPCODE = 160, `160, 0, 1` adds 8 and 9. -/
theorem test_add_opcode : (nextState (stepWith { addOpcode := some 160 } (((codeAt 0 [160, 0, 1]).setReg 0 8).setReg 1 9))).map (fun t => (t.reg 0, t.pc)) = some (17, 3) := by decide
/-- R70: no step from Halted. -/
theorem test_no_step_when_halted : nextState (step (State.reset.setStatus .halted)) = none := by decide
/-- The host's placing of a first instruction after reset: `LDI R0, 0` and a `PUSH R0`. -/
theorem test_with_fetch_word : (nextState (step (State.reset.withFetchWord 24 130))).map State.pc = some 3 ∧
    (nextState (step (State.reset.withFetchWord 8 69))).map (fun t => t.reg 7) = some 243 := by decide

/-! ## Witnesses: the hypotheses of each obligation are met, at the ends of their ranges -/

theorem witness_EveryStepKeepsInvariant : (codeAt 0 [69, 7]).inv = true ∧ (nextState (step (codeAt 0 [69, 7]))).isSome = true ∧
    (nextState (stepWith { spIndex := 3 } (codeAt 0 [69, 7]))).isSome = true := by decide
theorem witness_RunsFromLaunchKeepInvariant : (settings.flagsReset.atMostOne = true) ∧
    ({ flagsReset := ⟨false, false, true⟩ } : Config).flagsReset.atMostOne = true := by decide
theorem witness_FlagsAreMutuallyExclusive : (codeAt 0 [167, 0, 7]).flags.atMostOne = true ∧
    ((codeAt 0 [1]).setFlags ⟨true, false, false⟩).flags.exactlyOne = true ∧
    (nextState (step ((codeAt 0 [1]).setFlags ⟨true, false, false⟩))).isSome = true ∧
    (nextState (exec (.cmp 0 7) (codeAt 252 []))).map State.status = some .running := by decide
theorem witness_OpcodeTableIsExact : (0 : Byte).toNat ∉ [1, 17, 69, 70, 71, 80, 84, 85, 86, 130, 162, 167] ∧
    (255 : Byte).toNat ∉ [1, 17, 69, 70, 71, 80, 84, 85, 86, 130, 162, 167] := by decide
theorem witness_UnknownOpcodesAreTheListedRanges : State.reset.status = .running ∧
    Opcode.rows.all (fun k => State.reset.memRead State.reset.pc != k.value) = true := by decide
theorem witness_LengthFollowsFromOpcode : opcodeOf 130 = some .ldi ∧ (decode [130, 0]).toOption = none ∧
    (decode [130, 0, 0, 5]).toOption = some (.ldi 0 0, [5]) := by decide
theorem witness_StepRunsTheDecodedInstruction : (codeAt 253 [130, 1, 2]).status = .running ∧
    (decode (fetchBytes (codeAt 253 [130, 1, 2]))).toOption = some (.ldi 1 2, []) ∧
    (codeAt 253 []).pc.toNat + (encode (.ldi 1 2)).length ≤ 256 ∧ (codeAt 253 [130, 1, 2]).mem.read 255 = 2 := by decide
theorem witness_StepExistsOnlyWhileRunning : State.reset.status = .running ∧ (State.reset.setStatus .halted).status = .halted ∧
    (State.reset.setStatus .stopped).status = .stopped ∧
    (State.reset.setStatus (.faulted .stackOverflow)).status = .faulted .stackOverflow := by decide
theorem witness_OnlyHltHalts : (nextState (step (codeAt 254 [1]))).map State.status = some .halted ∧
    (nextState (step (codeAt 255 [1]))).map State.status = some (.faulted .addressOutOfRange) := by decide
theorem witness_FaultsArePreciseAndFinal : (nextState (stepWith settings State.reset)).map State.status = some (.faulted .illegalInstruction) := by decide
theorem witness_FaultReportedIsExact : faultReported settings State.reset = some .illegalInstruction ∧
    faultReported settings (codeAt 255 [84]) = some .addressOutOfRange ∧ faultReported settings (codeAt 254 [69, 8]) = some .registerIndexOutOfRange ∧
    faultReported settings ((codeAt 254 [69, 7]).setReg 7 0) = some .stackOverflow ∧
    faultReported settings ((codeAt 255 [17]).setReg 7 255) = some .stackUnderflow ∧
    faultReported settings ((codeAt 254 [70, 7]).memWrite 244 255) = some .stackUnderflow ∧
    faultReported settings (codeAt 254 [85, 0]) = some .addressOutOfRange ∧ faultReported settings (codeAt 254 [86, 0]) = none ∧
    faultReported settings (codeAt 252 [130, 7, 255]) = none ∧ faultReported settings (codeAt 253 [130, 7, 255]) = some .addressOutOfRange := by decide
theorem witness_FaultsNoInstructionRaises : ({ unknownOpcode := .skip1 } : Config).unknownOpcode = .skip1 ∧
    (nextState (stepWith { unknownOpcode := .skip1 } State.reset)).isSome = true := by decide
theorem witness_HltAdvancesAndHalts : (corner 254 0).pc.toNat + 1 < 256 := by decide
theorem witness_LdiWritesTheLiteral : (7 : Byte).toNat < 8 ∧ (corner 252 0).pc.toNat + 3 < 256 := by decide
theorem witness_PrnEmitsTheRegister : (7 : Byte).toNat < 8 ∧ (corner 253 0).pc.toNat + 2 < 256 := by decide
theorem witness_MultWritesTheProduct : (7 : Byte).toNat < 8 ∧ (0 : Byte).toNat < 8 ∧ (corner 252 255).pc.toNat + 3 < 256 := by decide
theorem witness_CmpSetsTheFlagOfTheOrder : (0 : Byte).toNat < 8 ∧ (7 : Byte).toNat < 8 ∧ (corner 252 255).pc.toNat + 3 < 256 ∧
    ((corner 252 255).reg 0).toNat = ((corner 252 255).reg 0).toNat ∧ ((corner 252 255).reg 0).toNat < ((corner 252 255).reg 7).toNat ∧
    nextState (exec (.cmp 7 0) (corner 252 255)) = some (((corner 252 255).setFlags ⟨false, true, false⟩).setPc 255) ∧
    (let va := ((corner 252 255).reg 7).toNat; let vb := ((corner 252 255).reg 0).toNat; vb < va) := by decide
theorem witness_PushWritesBelowTheStack : (7 : Byte).toNat < 8 ∧ (corner 253 1).sp settings ≠ 0 ∧ (corner 253 1).pc.toNat + 2 < 256 := by decide
theorem witness_PopLoadsTheTop : (6 : Byte).toNat < 7 ∧ (corner 253 254).reg 7 ≠ 255 ∧ (corner 253 254).pc.toNat + 2 < 256 := by decide
theorem witness_PopIntoTheStackPointer : (corner 253 255).memRead ((corner 253 255).reg 7) ≠ 255 ∧ (corner 253 255).pc.toNat + 2 < 256 ∧
    ((corner 254 0).memWrite 0 255).memRead (((corner 254 0).memWrite 0 255).reg 7) = 255 := by decide
theorem witness_CallPushesTheReturnAddress : (7 : Byte).toNat < 8 ∧ (corner 253 255).sp settings ≠ 0 ∧ (corner 253 255).pc.toNat + 2 < 256 := by decide
theorem witness_RetPopsTheProgramCounter : (corner 255 254).reg 7 ≠ 255 := by decide
theorem witness_JumpsGoToTheRegister : (7 : Byte).toNat < 8 ∧ State.reset.flags.E = false ∧ (State.reset.setFlags ⟨true, false, false⟩).flags.E = true ∧
    (codeAt 253 []).pc.toNat + 2 < 256 := by decide
theorem witness_BadRegisterIndexFaults : State.reset.status = .running ∧ (Instr.jeq 8).wellFormed = false ∧
    nextState (exec (.jeq 8) State.reset) = faulted .registerIndexOutOfRange State.reset := by decide
theorem witness_StackBoundsAreGuarded : (7 : Byte).toNat < 8 ∧ (State.reset.setReg 7 0).reg 7 = 0 ∧ (State.reset.setReg 7 255).reg 7 = 255 ∧ (6 : Byte).toNat ≠ 7 := by decide
theorem witness_ProgramCounterNeverWraps : (codeAt 255 []).pc = 255 ∧ 254 ≤ (codeAt 254 []).pc.toNat ∧ 253 ≤ (codeAt 253 []).pc.toNat ∧
    (7 : Byte).toNat < 8 ∧ (codeAt 254 []).reg 7 ≠ 0 ∧ (codeAt 254 []).reg 7 ≠ 255 ∧ (0 : Byte) ≠ 7 ∧
    (codeAt 254 []).memRead ((codeAt 254 []).reg 7) ≠ 255 ∧ (codeAt 254 []).flags.E = false ∧
    ((codeAt 254 []).setFlags ⟨true, false, false⟩).flags.E = true := by decide
theorem witness_FlagsAreWrittenByCmpAlone : (nextState (exec (.mult 0 7) State.reset)).map State.flags = some ⟨false, false, false⟩ ∧
    (nextState (exec (.cmp 0 7) State.reset)).map State.status = some .running ∧
    (⟨false, true, true⟩ : Flags).E = State.reset.flags.E ∧ (alu .add 0 7 State.reset).toOption.isSome = true := by decide
theorem witness_RegistersWrittenAreTheListedOnes : (nextState (exec (.push 0) State.reset)).map (fun t => t.reg 7) = some 243 ∧
    State.reset.reg 7 = 244 ∧ (nextState (exec (.ldi 0 255) State.reset)).map (fun t => t.reg 0) = some 255 ∧ State.reset.reg 0 = 0 ∧
    (nextState (exec (.mult 7 7) State.reset)).map (fun t => t.reg 7) = some 144 ∧
    (nextState (exec (.pop 0) (State.reset.memWrite 244 9))).map (fun t => t.reg 0) = some 9 := by decide
theorem witness_RegistersReadAreTheListedOnes : registerRead (.ldi 0 255) State.reset.flags 0 = false ∧
    registerRead (.jeq 7) State.reset.flags 7 = false ∧ registerRead (.pop 0) State.reset.flags 0 = false ∧
    registerRead .hlt State.reset.flags 7 = false ∧ registerRead (.mult 0 1) State.reset.flags 7 = false := by decide
theorem witness_MemoryIsWrittenByPushAndCallAlone : (nextState (exec (.push 7) State.reset)).map (fun t => t.mem.read 243) = some 243 ∧
    State.reset.mem.read 243 = 0 ∧ (nextState (exec (.call 7) State.reset)).map (fun t => t.mem.read 243) = some 2 := by decide
theorem witness_ProgramCounterAfterEachInstruction : [Instr.hlt, .ret, .push 7, .pop 7, .prn 7, .call 7, .jmp 7, .jeq 7, .jne 7, .ldi 7 255, .mult 7 7, .cmp 7 7].all
    (fun i => (nextState (exec i (codeAt 252 []))).any (fun t => t.status = .running ∨ t.status = .halted)) = true := by decide
theorem witness_OutputIsWhatPrnEmitted : (nextState (stepWith settings (codeAt 253 [71, 7]))).map (fun t => (t.out, t.status)) = some ([244], .running) ∧
    (decode (fetchBytes (codeAt 253 [71, 7]))).toOption = some (.prn 7, [0]) ∧
    (nextState (stepWith settings (codeAt 254 [71, 7]))).map (fun t => (t.out, t.status)) = some ([], .faulted .addressOutOfRange) ∧
    (decode (fetchBytes (codeAt 255 [84]))).toOption = none := by decide
theorem witness_MemoryReturnsTheLastWrite : (nextState (step (codeAt 0 [69, 7]))).map State.mem ≠ some (codeAt 0 [69, 7]).mem ∧
    (nextState (step (codeAt 0 [80, 7]))).map State.mem ≠ some (codeAt 0 [80, 7]).mem ∧
    (decode (fetchBytes (codeAt 253 [69, 7]))).toOption = some (.push 7, [0]) ∧
    (nextState (step ((codeAt 253 [69, 7]).setReg 7 1))).map (fun t => (t.mem.read 0, t.mem.read 253, t.status)) = some (0, 69, .running) ∧
    (decode (fetchBytes (codeAt 253 [80, 0]))).toOption = some (.call 0, [0]) ∧
    (nextState (step ((codeAt 253 [80, 0]).setReg 7 1))).map (fun t => (t.mem.read 0, t.mem.read 253, t.status)) = some (255, 80, .running) := by decide
theorem witness_CanonicalMemoriesAreEqualData : Memory.wf [(0, 1), (255, 9)] = true ∧ Memory.write [(0, 1)] 255 9 = [(0, 1), (255, 9)] ∧ Memory.wf [(3, 0)] = false ∧ Memory.wf [(256, 1)] = false ∧
    Memory.wf [(4, 1), (3, 1)] = false := by decide
theorem witness_FetchSeesTheStackWrite : (nextState (exec (.push 7) State.reset)).map State.status = some .running ∧
    (nextState (exec (.call 7) State.reset)).map State.status = some .running := by decide
theorem witness_PushThenPopRoundTrips : (3 : Byte).toNat < 8 ∧ (codeAt 251 []).pc.toNat + 4 < 256 ∧
    (State.reset.setReg 3 1).sp { spIndex := 3 } ≠ 0 ∧ (0 : Byte).toNat ≠ (3 : Reg).val := by decide
theorem witness_CallThenRetResumes : (codeAt 253 []).pc.toNat + 2 < 256 ∧ (State.reset.setReg 3 1).sp { spIndex := 3 } ≠ 0 ∧
    (nextState (execWith settings (.call 7) State.reset)).map (fun t => (t.sp settings, t.memRead (t.sp settings))) = some (243, 2) := by decide
theorem witness_SkipPolicyAdvancesByOne : (codeAt 255 [255]).pc = 255 ∧ (codeAt 254 [131]).pc.toNat < 255 ∧
    Opcode.rows.all (fun k => (codeAt 254 [131]).memRead 254 != k.value) = true ∧
    ({ unknownOpcode := .skip1 } : Config).addOpcode ≠ some ((codeAt 254 [131]).memRead 254) := by decide
theorem witness_AddOpcodeAddsRegisters : ({ addOpcode := some 160 } : Config).addOpcode = some ((codeAt 252 [160, 7, 7]).memRead 252) ∧
    Opcode.rows.all (fun k => (codeAt 252 [160, 7, 7]).memRead 252 != k.value) = true ∧ (codeAt 252 [160, 7, 7]).pc.toNat + 3 < 256 ∧
    ((codeAt 252 [160, 7, 7]).mem.read 253).toNat < 8 ∧ ((codeAt 252 [160, 7, 7]).mem.read 254).toNat < 8 := by decide
theorem witness_LoadPlacesTheProgram : (List.replicate 256 (1 : Byte)).length ≤ 256 ∧ 255 < (List.replicate 256 (1 : Byte)).length ∧
    ([] : List Byte).length ≤ 256 := by
  rw [List.length_replicate]; decide
theorem witness_TooLargeProgramNeverRuns : 256 < (List.replicate 257 (1 : Byte)).length := by rw [List.length_replicate]; decide
theorem witness_LaunchRunsTheFirstInstruction : ([71, 7, 1] : List Byte) = encode (.prn 7) ++ [1] ∧ ([71, 7, 1] : List Byte).length ≤ 256 := by decide
theorem witness_HostStopEndsTheRun : State.reset.status = .running ∧ (State.reset.setStatus .halted).status ≠ .running := by decide
theorem witness_EndedRunsStayEnded : (runWith settings 1 (launch [1])).ended = true := by decide

end Sys2Proof.Tests
end

section
/-! SUPPORT. Proofs of the statements of 00_scope.md: the machine is the parametric machine at the defaults of R5. -/

namespace Sys2Proof.Machine

/-- R5: every parameter the machine fixes (D1, D4, D7, D18) has the value that `Config` defaults to. -/
theorem settings_eq_default : settings = { : Config } := rfl

theorem reset_eq_resetWith : State.reset = State.resetWith settings := rfl

/-- Settles O45: the parametric step and dispatcher agree with the machine's own, instruction by instruction, and the
reset state and the settings are so by definition. -/
theorem machineIsTheParametricOneAtItsSettings : Obligations.MachineIsTheParametricOneAtItsSettings :=
  ⟨step_eq_stepWith, exec_eq_execWith, reset_eq_resetWith, settings_eq_default⟩

end Sys2Proof.Machine
end

section
/-! SUPPORT. The state after reset, and what an instruction's effect leaves unchanged: the frame of every instruction,
said once. The invariant, the flags, the status and the output are read off it. -/

namespace Sys2Proof.Machine

/-! ## Reset -/

/-- A register after reset (R26): the stack pointer holds `SP_RESET`, every other register 0. -/
theorem resetWith_reg (c : Config) (r : Reg) : (State.resetWith c).reg r = if r = c.spIndex then spReset else 0 := by
  by_cases h : r = c.spIndex
  · subst h; simp [State.reg, State.resetWith]
  · have : c.spIndex.val ≠ r.val := fun e => h (Fin.ext e.symm)
    simp [State.reg, State.resetWith, h, this]

theorem inv_iff (s : State) : s.inv = true ↔ s.mem.wf = true ∧ s.flags.atMostOne = true := by
  simp [State.inv]

/-- A legal `FLAGS_RESET` gives the invariant at reset. -/
theorem resetWith_inv {c : Config} (h : c.flagsReset.atMostOne = true) : (State.resetWith c).inv = true :=
  (inv_iff _).mpr ⟨Memory.wf_nil, h⟩

/-! ## The flags of a comparison -/

/-- Of two numbers exactly one of equal, greater and less holds (R19). -/
theorem compareFlags_exactlyOne (x y : Byte) : (compareFlags x y).exactlyOne = true := by
  rcases Nat.lt_trichotomy x.toNat y.toNat with h | h | h
  · have hne : x ≠ y := fun e => by simp [e] at h
    simp [Flags.exactlyOne, Flags.atMostOne, compareFlags, h, hne, Nat.le_of_lt h]
  · simp [Flags.exactlyOne, Flags.atMostOne, compareFlags, BitVec.eq_of_toNat_eq h]
  · have hne : x ≠ y := fun e => by simp [e] at h
    simp [Flags.exactlyOne, Flags.atMostOne, compareFlags, h, hne, Nat.le_of_lt h]

theorem atMostOne_of_exactlyOne {f : Flags} (h : f.exactlyOne = true) : f.atMostOne = true :=
  (Bool.and_eq_true_iff.mp h).1

/-! ## The frame of an effect -/

/-- What is the same in `s` and in the state `t` that `i` leaves, and what little can differ outside the registers
and the pc. -/
structure Frame (c : Config) (i : Instr) (s t : State) : Prop where
  /-- CMP alone writes the flags (R18) -/
  flags : t.flags = s.flags ∨ ∃ a b x y, i = .cmp a b ∧ t.flags = compareFlags x y
  /-- PUSH and CALL alone write memory, in one cell (R46) -/
  mem : t.mem = s.mem ∨ ∃ r v, (i = .push r ∨ i = .call r) ∧ t.mem = s.mem.write (pushAddress c s).toNat v
  /-- HLT alone changes the status (R20) -/
  status : t.status = s.status ∨ i = .hlt ∧ t.status = .halted
  /-- PRN alone emits, one register's value (R22) -/
  out : t.out = s.out ∨ ∃ r, i = .prn r ∧ ∃ h : r.toNat < 8, t.out = s.out ++ [s.reg ⟨r.toNat, h⟩]

theorem effect_frame {c : Config} {i : Instr} {s t : State} (he : Effect c i s t) : Frame c i s t := by
  cases i with
  | hlt => obtain ⟨-, rfl⟩ := he; exact ⟨.inl rfl, .inl rfl, .inr ⟨rfl, rfl⟩, .inl rfl⟩
  | ret => obtain ⟨-, rfl⟩ := he; exact ⟨.inl rfl, .inl rfl, .inl rfl, .inl rfl⟩
  | push r => obtain ⟨h, -, -, rfl⟩ := he; exact ⟨.inl rfl, .inr ⟨r, _, .inl rfl, rfl⟩, .inl rfl, .inl rfl⟩
  | pop r => obtain ⟨h, -, -, rfl⟩ := he; exact ⟨.inl rfl, .inl rfl, .inl rfl, .inl rfl⟩
  | prn r => obtain ⟨h, -, rfl⟩ := he; exact ⟨.inl rfl, .inl rfl, .inl rfl, .inr ⟨r, rfl, h, rfl⟩⟩
  | call r => obtain ⟨h, -, -, rfl⟩ := he; exact ⟨.inl rfl, .inr ⟨r, _, .inr rfl, rfl⟩, .inl rfl, .inl rfl⟩
  | jmp r => obtain ⟨h, rfl⟩ := he; exact ⟨.inl rfl, .inl rfl, .inl rfl, .inl rfl⟩
  | jeq r => obtain ⟨h, ⟨-, rfl⟩ | ⟨-, -, rfl⟩⟩ := he <;> exact ⟨.inl rfl, .inl rfl, .inl rfl, .inl rfl⟩
  | jne r => obtain ⟨h, ⟨-, rfl⟩ | ⟨-, -, rfl⟩⟩ := he <;> exact ⟨.inl rfl, .inl rfl, .inl rfl, .inl rfl⟩
  | ldi d v => obtain ⟨h, -, rfl⟩ := he; exact ⟨.inl rfl, .inl rfl, .inl rfl, .inl rfl⟩
  | mult a b => obtain ⟨ha, hb, -, rfl⟩ := he; exact ⟨.inl rfl, .inl rfl, .inl rfl, .inl rfl⟩
  | cmp a b =>
    obtain ⟨ha, hb, -, rfl⟩ := he
    exact ⟨.inr ⟨a, b, _, _, rfl, rfl⟩, .inl rfl, .inl rfl, .inl rfl⟩

/-- An instruction that answers `t` raised a fault or had its effect. -/
theorem exec_fault_or_effect {i : Instr} {s t : State} (h : exec i s = .next t) :
    (∃ f, t = s.setStatus (.faulted f)) ∨ Effect settings i s t := by
  rcases exec_cases i s with ⟨f, e⟩ | ⟨u, e, he⟩
  · exact .inl ⟨f, Host.Outcome.next.inj (h.symm.trans e)⟩
  · rw [h] at e; cases e; exact .inr he

/-- An instruction that does not fault has its effect. -/
theorem effect_of_exec {i : Instr} {s t : State} (h : exec i s = .next t) (hf : ∀ f, t ≠ s.setStatus (.faulted f)) :
    Effect settings i s t :=
  (exec_fault_or_effect h).resolve_left (not_exists.mpr hf)

/-- A state that is not faulted is none that a fault leaves. -/
theorem ne_faulted {s t : State} (h : ∀ f, t.status ≠ .faulted f) (f : FaultName) : t ≠ s.setStatus (.faulted f) :=
  fun e => h f (e ▸ rfl)

/-- The decoder's instruction is the machine's, at every setting. -/
theorem decodeWith_eq_instr {c : Config} {bytes : List Byte} {i : Instr} :
    decodeWith c bytes = .instr i ↔ ∃ rest, decode bytes = .ok (i, rest) := by
  unfold decodeWith
  split
  · next j rest e => simp [e]
  · next op e =>
    rw [e]
    split
    · split <;> simp
    · simp
  · next r _ e => simp [e]

/-- A step from Running runs the instruction that stands at the pc (R70, R72). -/
theorem stepWith_of_decode {c : Config} {s : State} {i : Instr} {rest : List Byte} (hs : s.status = .running)
    (hd : decode (fetchBytes s) = .ok (i, rest)) : stepWith c s = execWith c i s := by
  rw [stepWith, whenRunning_running hs, cycle, decodeWith_eq_instr.mpr ⟨rest, hd⟩]

/-! ## The frame of a step -/

/-- A step leaves the flags or ends with those of a comparison (R18). -/
theorem StepOutcome.flags {c : Config} {s t : State} (h : StepOutcome c s t) :
    t.flags = s.flags ∨ ∃ x y, t.flags = compareFlags x y := by
  cases h with
  | raised | added | skipped => exact .inl rfl
  | executed i t _ he =>
    rcases (effect_frame he).flags with e | ⟨_, _, x, y, _, e⟩
    · exact .inl e
    · exact .inr ⟨x, y, e⟩

/-- A step keeps the canonical form of memory. -/
theorem StepOutcome.mem_wf {c : Config} {s t : State} (h : StepOutcome c s t) (hw : s.mem.wf = true) : t.mem.wf = true := by
  cases h with
  | raised | added | skipped => exact hw
  | executed i t _ he =>
    rcases (effect_frame he).mem with e | ⟨_, v, _, e⟩
    · rwa [e]
    · rw [e]; exact Memory.wf_write hw (pushAddress c s).isLt

/-- A step keeps every property of the flags that all comparisons give. -/
theorem StepOutcome.flags_induction {c : Config} {s t : State} (h : StepOutcome c s t) {P : Flags → Prop}
    (hcmp : ∀ x y, P (compareFlags x y)) (hs : P s.flags) : P t.flags := by
  rcases h.flags with e | ⟨x, y, e⟩
  · rwa [e]
  · rw [e]; exact hcmp x y

theorem StepOutcome.atMostOne {c : Config} {s t : State} (h : StepOutcome c s t) (hs : s.flags.atMostOne = true) :
    t.flags.atMostOne = true :=
  h.flags_induction (P := (·.atMostOne = true)) (fun x y => atMostOne_of_exactlyOne (compareFlags_exactlyOne x y)) hs

/-- A step at any setting of the parameters keeps the invariant. -/
theorem stepWith_inv_preserved {c : Config} {s t : State} (hi : s.inv = true) (h : stepWith c s = .next t) : t.inv = true := by
  have ⟨hw, hf⟩ := (inv_iff s).mp hi
  have ho := (stepWith_inv h).2
  exact (inv_iff t).mpr ⟨ho.mem_wf hw, ho.atMostOne hf⟩

/-- The host's stop changes at most the status. -/
theorem hostStop_inv {s : State} (h : s.inv = true) : (hostStop s).inv = true := by
  unfold hostStop
  split <;> exact h

/-- A load writes no flag. -/
theorem load_flags (prog : List Byte) (s : State) : (load prog s).flags = s.flags := by
  unfold load
  split <;> rfl

theorem load_inv {s : State} (prog : List Byte) (h : s.inv = true) : (load prog s).inv = true := by
  have ⟨hw, hf⟩ := (inv_iff s).mp h
  exact (inv_iff _).mpr ⟨wf_load prog hw, load_flags prog s ▸ hf⟩

/-- What a step leaves the status as: Halted after a HLT, else what a fault or Running says (R20). -/
theorem StepOutcome.status {c : Config} {s t : State} (h : StepOutcome c s t) :
    t.status = s.status ∨ (∃ f, t.status = .faulted f) ∨
      t.status = .halted ∧ s.pc.toNat + 1 < 256 ∧ ∃ rest, decode (fetchBytes s) = .ok (.hlt, rest) := by
  cases h with
  | raised f => exact .inr (.inl ⟨f, rfl⟩)
  | added | skipped => exact .inl rfl
  | executed i t hd he =>
    rcases (effect_frame he).status with e | ⟨rfl, e⟩
    · exact .inl e
    · exact .inr (.inr ⟨e, he.1, decodeWith_eq_instr.mp hd⟩)

/-- A step on a HLT below 255 halts (R110). -/
theorem step_hlt {s t : State} {rest : List Byte} (h : step s = .next t) (hd : decode (fetchBytes s) = .ok (.hlt, rest))
    (hp : s.pc.toNat < 255) : t.status = .halted := by
  have hs : s.status = .running := (step_inv h).1
  have he : Effect settings .hlt s ((s.setPc (BitVec.ofNat 8 (s.pc.toNat + 1))).setStatus .halted) := ⟨by omega, rfl⟩
  rw [step_eq_stepWith, stepWith_of_decode hs hd, execWith_of_effect he] at h
  cases h; rfl

end Sys2Proof.Machine
end

section
/-! SUPPORT. Proofs of the statements about reset, the invariant of every run, and what ends a run. -/

namespace Sys2Proof.Machine

/-- Settles O1: the machine's reset and the reset action are `State.resetWith`, whose registers `resetWith_reg` gives. -/
theorem resetStateIsAsSpecified : Obligations.ResetStateIsAsSpecified :=
  ⟨resetWith_reg settings, rfl, rfl, rfl, rfl, fun _ => rfl,
    fun c _ => ⟨resetWith_reg c, rfl, rfl, rfl, rfl, fun _ => rfl⟩⟩

/-- Settles O2: the machine's clear flags are a legal `FLAGS_RESET`. -/
theorem resetHasInvariant : Obligations.ResetHasInvariant := resetWith_inv (c := settings) rfl

/-- Settles O3: memory is written by PUSH and CALL alone, inside the 256 cells, and a step leaves the flags or writes a
comparison's. -/
theorem everyStepKeepsInvariant : Obligations.EveryStepKeepsInvariant :=
  ⟨fun s _ hi h => stepWith_inv_preserved hi (step_eq_stepWith s ▸ h), fun _ _ _ => stepWith_inv_preserved⟩

/-- Settles O4, by induction on the fuel. -/
theorem runsFromLaunchKeepInvariant : Obligations.RunsFromLaunchKeepInvariant := by
  intro c prog k hc
  have hl : (launchWith c prog).inv = true := load_inv prog (resetWith_inv hc)
  have hr : (runWith c k (launchWith c prog)).inv = true :=
    runWith_induction (P := (·.inv = true)) (fun _ _ => stepWith_inv_preserved) k _ hl
  exact ⟨hl, hr, hostStop_inv hr⟩

/-- Settles O5: every comparison sets exactly one flag, and nothing else writes them. -/
theorem flagsAreMutuallyExclusive : Obligations.FlagsAreMutuallyExclusive := by
  refine ⟨rfl, fun s t hs h => (step_inv h).2.atMostOne hs, fun s t hs h =>
    (step_inv h).2.flags_induction (P := (·.exactlyOne = true)) compareFlags_exactlyOne hs, fun a b s t h hf => ?_⟩
  obtain ⟨ha, hb, -, rfl⟩ := effect_of_exec h (ne_faulted hf)
  exact compareFlags_exactlyOne _ _

/-- Settles O13: the status a step leaves is that of a HLT, of a fault, or Running. -/
theorem onlyHltHalts : Obligations.OnlyHltHalts := by
  intro s t h
  obtain ⟨hs, ho⟩ := step_inv h
  refine ⟨?_, fun hh => ?_, fun ⟨rest, hd, hp⟩ => step_hlt h hd hp⟩
  · rcases ho.status with e | ⟨f, e⟩ | ⟨e, -⟩ <;> simp [e, hs]
  · rcases ho.status with e | ⟨f, e⟩ | ⟨-, hp, rest, hd⟩
    · simp [hh, hs] at e
    · simp [hh] at e
    · exact ⟨rest, hd, by omega⟩

end Sys2Proof.Machine
end

section
/-! SUPPORT. Noninterference. A change of the state that an instruction does not look at, and that none of its updates
overwrites, can be made before or after the instruction: one lemma per handler, for every such change. The changes of the
trace, of the flags and of one register are the three used. -/

namespace Sys2Proof.Machine

/-! A change made to what the checks answer: to the state when all passed, to nothing when one failed. -/

@[simp] theorem checked_map_ok {α β : Type} (k : α → β) (a : α) : k <$> (Except.ok a : Checked α) = .ok (k a) := rfl
@[simp] theorem checked_map_error {α β : Type} (k : α → β) (f : FaultName) :
    k <$> (Except.error f : Checked α) = .error f := rfl

/-- Apply a change to the next state, if there is one. -/
def mapNext (φ : State → State) : Result → Result
  | .next t => .next (φ t)
  | .fault f => .fault f
  | .refused r => .refused r

/-- `φ` changes neither pc, status nor memory, and is exchanged with every update but those of registers and flags. -/
structure Unseen (φ : State → State) : Prop where
  pc : ∀ u, (φ u).pc = u.pc
  status : ∀ u, (φ u).status = u.status
  mem : ∀ u, (φ u).mem = u.mem
  setPc : ∀ u v, (φ u).setPc v = φ (u.setPc v)
  setStatus : ∀ u v, (φ u).setStatus v = φ (u.setStatus v)
  memWrite : ∀ u a v, (φ u).memWrite a v = φ (u.memWrite a v)
  emit : ∀ u v, (φ u).emit v = φ (u.emit v)

/-- `φ` does not change `x[k]`, and is exchanged with a write of it. -/
structure Leaves (φ : State → State) (k : Reg) : Prop where
  reg : ∀ u, (φ u).reg k = u.reg k
  setReg : ∀ u v, (φ u).setReg k v = φ (u.setReg k v)

/-! ## The stack pointer -/

section StackPointer

variable {φ : State → State} {c : Config} (hsp : Leaves φ c.spIndex) (s : State)
include hsp

theorem Leaves.sp_eq : (φ s).sp c = s.sp c := hsp.reg s

theorem Leaves.setSp_eq (v : Byte) : (φ s).setSp c v = φ (s.setSp c v) := hsp.setReg s v

theorem Leaves.decrementSp_map : decrementSp c (φ s) = φ <$> decrementSp c s := by
  by_cases h : s.sp c = 0
  · rw [decrementSp_error h, decrementSp_error ((hsp.sp_eq s).trans h)]; rfl
  · rw [decrementSp_ok h, decrementSp_ok (by rwa [hsp.sp_eq]), hsp.sp_eq, hsp.setSp_eq]; rfl

theorem Leaves.incrementSp_map : incrementSp c (φ s) = φ <$> incrementSp c s := by
  by_cases h : s.sp c = 255
  · rw [incrementSp_error h, incrementSp_error ((hsp.sp_eq s).trans h)]; rfl
  · rw [incrementSp_ok h, incrementSp_ok (by rwa [hsp.sp_eq]), hsp.sp_eq, hsp.setSp_eq]; rfl

end StackPointer

/-! ## The handlers -/

section Handlers

variable {φ : State → State} (hφ : Unseen φ) {c : Config} {r a b : Byte} {s : State}
include hφ

theorem Unseen.nextPc_eq (w : Nat) : nextPc w (φ s) = nextPc w s := by
  simp only [nextPc, hφ.pc]

theorem Unseen.memRead_eq (x : Byte) : (φ s).memRead x = s.memRead x := by
  simp only [State.memRead, hφ.mem]

theorem Unseen.fetchBytes_eq : fetchBytes (φ s) = fetchBytes s := by
  have h : fetchByte (φ s) = fetchByte s := funext fun k => by simp only [fetchByte, hφ.pc, hφ.mem]
  simp only [fetchBytes, h]

theorem Unseen.raise_mapNext (f : FaultName) : raise f (φ s) = mapNext φ (raise f s) :=
  congrArg Host.Outcome.next (hφ.setStatus s _)

/-- The end of a handler: a fault writes the status alone, so the change stays; else it is made to the new state. -/
theorem Unseen.commit_mapNext (x : Checked State) : commit (φ s) (φ <$> x) = mapNext φ (commit s x) := by
  cases x with
  | error f => exact hφ.raise_mapNext f
  | ok t => rfl

theorem Unseen.execHlt_mapNext : execHlt (φ s) = mapNext φ (execHlt s) := by
  rw [execHlt, execHlt, ← hφ.commit_mapNext]
  simp [hφ.nextPc_eq, hφ.setPc, hφ.setStatus]

theorem Unseen.execRet_mapNext (hsp : Leaves φ c.spIndex) : execRetWith c (φ s) = mapNext φ (execRetWith c s) := by
  rw [execRetWith, execRetWith, ← hφ.commit_mapNext]
  simp [hsp.incrementSp_map, stackTop, hsp.sp_eq, hφ.memRead_eq, hφ.setPc]

theorem Unseen.execPush_mapNext (hsp : Leaves φ c.spIndex) (hr : ∀ h : r.toNat < 8, Leaves φ ⟨r.toNat, h⟩) :
    execPushWith c r (φ s) = mapNext φ (execPushWith c r s) := by
  rw [execPushWith, execPushWith, ← hφ.commit_mapNext]
  by_cases h : r.toNat < 8
  · simp [regIdx_ok h, hsp.decrementSp_map, hsp.sp_eq, (hr h).reg, hφ.nextPc_eq, hφ.memWrite, hφ.setPc]
  · simp [regIdx_error (Nat.not_lt.mp h)]

theorem Unseen.execPop_mapNext (hsp : Leaves φ c.spIndex) (hr : ∀ h : r.toNat < 8, Leaves φ ⟨r.toNat, h⟩) :
    execPopWith c r (φ s) = mapNext φ (execPopWith c r s) := by
  rw [execPopWith, execPopWith, ← hφ.commit_mapNext]
  by_cases h : r.toNat < 8
  · simp [regIdx_ok h, stackTop, hsp.sp_eq, hφ.memRead_eq, (hr h).setReg, hsp.incrementSp_map, hφ.nextPc_eq, hφ.setPc]
  · simp [regIdx_error (Nat.not_lt.mp h)]

theorem Unseen.execPrn_mapNext (hr : ∀ h : r.toNat < 8, Leaves φ ⟨r.toNat, h⟩) :
    execPrn r (φ s) = mapNext φ (execPrn r s) := by
  rw [execPrn, execPrn, ← hφ.commit_mapNext]
  by_cases h : r.toNat < 8
  · simp [regIdx_ok h, (hr h).reg, hφ.nextPc_eq, hφ.emit, hφ.setPc]
  · simp [regIdx_error (Nat.not_lt.mp h)]

theorem Unseen.execCall_mapNext (hsp : Leaves φ c.spIndex) (hr : ∀ h : r.toNat < 8, Leaves φ ⟨r.toNat, h⟩) :
    execCallWith c r (φ s) = mapNext φ (execCallWith c r s) := by
  rw [execCallWith, execCallWith, ← hφ.commit_mapNext]
  by_cases h : r.toNat < 8
  · simp only [regIdx_ok h, checked_ok_bind, hsp.decrementSp_map, hφ.nextPc_eq, map_bind, bind_map_left, hsp.sp_eq,
      hφ.memWrite, (hr h).reg, hφ.setPc, map_pure]
  · simp [regIdx_error (Nat.not_lt.mp h)]

/-- A jump reads its register only when it is taken (R106, R107). -/
theorem Unseen.jumpIf_mapNext {taken : Bool} (hr : taken = true → ∀ h : r.toNat < 8, Leaves φ ⟨r.toNat, h⟩) :
    jumpIf taken r (φ s) = mapNext φ (jumpIf taken r s) := by
  rw [jumpIf, jumpIf, ← hφ.commit_mapNext]
  by_cases h : r.toNat < 8
  · cases taken with
    | true => simp [regIdx_ok h, (hr rfl h).reg, hφ.setPc]
    | false => simp [regIdx_ok h, hφ.nextPc_eq, hφ.setPc]
  · simp [regIdx_error (Nat.not_lt.mp h)]

theorem Unseen.execLdi_mapNext {v : Byte} (hr : ∀ h : r.toNat < 8, Leaves φ ⟨r.toNat, h⟩) :
    execLdi r v (φ s) = mapNext φ (execLdi r v s) := by
  rw [execLdi, execLdi, ← hφ.commit_mapNext]
  by_cases h : r.toNat < 8
  · simp [regIdx_ok h, (hr h).setReg, hφ.nextPc_eq, hφ.setPc]
  · simp [regIdx_error (Nat.not_lt.mp h)]

/-- The common form of MULT, CMP and the ADD form: two indices, the advance, one update `upd` of the registers or flags. -/
theorem Unseen.twoRegisters_mapNext {upd upd' : Reg → Reg → State}
    (h : ∀ (ha : a.toNat < 8) (hb : b.toNat < 8), upd' ⟨a.toNat, ha⟩ ⟨b.toNat, hb⟩ = φ (upd ⟨a.toNat, ha⟩ ⟨b.toNat, hb⟩)) :
    commit (φ s) (do
      let ra ← regIdx a
      let rb ← regIdx b
      let t ← nextPc 3 (φ s)
      return (upd' ra rb).setPc t) =
    mapNext φ (commit s (do
      let ra ← regIdx a
      let rb ← regIdx b
      let t ← nextPc 3 s
      return (upd ra rb).setPc t)) := by
  rw [← hφ.commit_mapNext]
  by_cases ha : a.toNat < 8
  · by_cases hb : b.toNat < 8
    · simp [regIdx_ok ha, regIdx_ok hb, h ha hb, hφ.nextPc_eq, hφ.setPc]
    · simp [regIdx_ok ha, regIdx_error (Nat.not_lt.mp hb)]
  · simp [regIdx_error (Nat.not_lt.mp ha)]

section TwoRegisters

variable (ha : ∀ h : a.toNat < 8, Leaves φ ⟨a.toNat, h⟩) (hb : ∀ h : b.toNat < 8, Leaves φ ⟨b.toNat, h⟩)
include ha hb

theorem Unseen.execMult_mapNext : execMult a b (φ s) = mapNext φ (execMult a b s) :=
  hφ.twoRegisters_mapNext fun h h' => by rw [aluMult, (ha h).reg, (hb h').reg, (ha h).setReg]; rfl

theorem Unseen.execAddForm_mapNext : execAddForm a b (φ s) = mapNext φ (execAddForm a b s) :=
  hφ.twoRegisters_mapNext fun h h' => by rw [aluAdd, (ha h).reg, (hb h').reg, (ha h).setReg]; rfl

theorem Unseen.execCmp_mapNext (hf : ∀ u f, (φ u).setFlags f = φ (u.setFlags f)) :
    execCmp a b (φ s) = mapNext φ (execCmp a b s) :=
  hφ.twoRegisters_mapNext fun h h' => by rw [aluCmp, (ha h).reg, (hb h').reg, hf]; rfl

end TwoRegisters

theorem Unseen.execJeq_mapNext (hE : (φ s).flags.E = s.flags.E)
    (hr : s.flags.E = true → ∀ h : r.toNat < 8, Leaves φ ⟨r.toNat, h⟩) : execJeq r (φ s) = mapNext φ (execJeq r s) := by
  rw [execJeq, hE]; exact hφ.jumpIf_mapNext hr

theorem Unseen.execJne_mapNext (hE : (φ s).flags.E = s.flags.E)
    (hr : s.flags.E = false → ∀ h : r.toNat < 8, Leaves φ ⟨r.toNat, h⟩) : execJne r (φ s) = mapNext φ (execJne r s) := by
  rw [execJne, hE]; exact hφ.jumpIf_mapNext fun h => hr (by simpa using h)

/-- A change that leaves every register is made before or after an instruction alike, when a jump sees its `E` (R18) and a
CMP does not overwrite it. -/
theorem Unseen.execWith_mapNext (hr : ∀ k, Leaves φ k) (i : Instr)
    (hE : ∀ r, i = .jeq r ∨ i = .jne r → (φ s).flags.E = s.flags.E)
    (hf : ∀ a b, i = .cmp a b → ∀ u f, (φ u).setFlags f = φ (u.setFlags f)) :
    execWith c i (φ s) = mapNext φ (execWith c i s) := by
  cases i with
  | hlt => exact hφ.execHlt_mapNext
  | ret => exact hφ.execRet_mapNext (hr _)
  | push r => exact hφ.execPush_mapNext (hr _) fun _ => hr _
  | pop r => exact hφ.execPop_mapNext (hr _) fun _ => hr _
  | prn r => exact hφ.execPrn_mapNext fun _ => hr _
  | call r => exact hφ.execCall_mapNext (hr _) fun _ => hr _
  | jmp r => exact hφ.jumpIf_mapNext fun _ _ => hr _
  | jeq r => exact hφ.execJeq_mapNext (hE r (.inl rfl)) fun _ _ => hr _
  | jne r => exact hφ.execJne_mapNext (hE r (.inr rfl)) fun _ _ => hr _
  | ldi d v => exact hφ.execLdi_mapNext fun _ => hr _
  | mult a b => exact hφ.execMult_mapNext (fun _ => hr _) fun _ => hr _
  | cmp a b => exact hφ.execCmp_mapNext (fun _ => hr _) (fun _ => hr _) (hf a b rfl)

theorem Unseen.execRejected_mapNext (x : Reject) : execRejected c x (φ s) = mapNext φ (execRejected c x s) := by
  cases x with
  | noByte => exact hφ.raise_mapNext _
  | operandMissing => exact hφ.raise_mapNext _
  | unknownOpcode op =>
    rw [execRejected, execRejected]
    cases c.unknownOpcode with
    | fault => exact hφ.raise_mapNext _
    | skip1 =>
      rw [unknownOpcode, unknownOpcode, ← hφ.commit_mapNext]
      simp [hφ.nextPc_eq, hφ.setPc]

/-- A change of what no instruction looks at or overwrites is made before or after a step alike. -/
theorem Unseen.stepWith_mapNext (hr : ∀ k, Leaves φ k) (hE : ∀ u, (φ u).flags = u.flags)
    (hf : ∀ u f, (φ u).setFlags f = φ (u.setFlags f)) : stepWith c (φ s) = mapNext φ (stepWith c s) := by
  have hcycle : cycle c (execWith c) (φ s) = mapNext φ (cycle c (execWith c) s) := by
    rw [cycle, cycle, hφ.fetchBytes_eq]
    cases decodeWith c (fetchBytes s) with
    | instr i => exact hφ.execWith_mapNext hr i (fun _ _ => by rw [hE]) fun _ _ _ => hf
    | addForm a b => exact hφ.execAddForm_mapNext (fun _ => hr _) fun _ => hr _
    | rejected x => exact hφ.execRejected_mapNext x
  rw [stepWith, stepWith, hcycle, whenRunning, whenRunning, hφ.status]
  cases s.status <;> rfl

end Handlers

end Sys2Proof.Machine
end

section
/-! SUPPORT. Proofs of the statements about what the instructions read and write: flags, registers, pc and output. -/

namespace Sys2Proof.Machine

/-! ## Three changes that an instruction may not see -/

/-- Put `p` before the output trace. -/
def State.prependOut (p : List Byte) (s : State) : State := { s with out := p ++ s.out }

theorem unseen_prependOut (p : List Byte) : Unseen (State.prependOut p) where
  pc _ := rfl
  status _ := rfl
  mem _ := rfl
  setPc _ _ := rfl
  setStatus _ _ := rfl
  memWrite _ _ _ := rfl
  emit u v := congrArg (fun o => { u with out := o }) (List.append_assoc p u.out [v])

theorem leaves_prependOut (p : List Byte) (k : Reg) : Leaves (State.prependOut p) k where
  reg _ := rfl
  setReg _ _ := rfl

theorem unseen_setFlags (g : Flags) : Unseen (·.setFlags g) where
  pc _ := rfl
  status _ := rfl
  mem _ := rfl
  setPc _ _ := rfl
  setStatus _ _ := rfl
  memWrite _ _ _ := rfl
  emit _ _ := rfl

theorem leaves_setFlags (g : Flags) (k : Reg) : Leaves (·.setFlags g) k where
  reg _ := rfl
  setReg _ _ := rfl

theorem unseen_setReg (k : Reg) (v : Byte) : Unseen (·.setReg k v) where
  pc _ := rfl
  status _ := rfl
  mem _ := rfl
  setPc _ _ := rfl
  setStatus _ _ := rfl
  memWrite _ _ _ := rfl
  emit _ _ := rfl

/-- Writes of two different registers commute. -/
theorem setReg_comm {j k : Reg} (h : j ≠ k) (s : State) (v w : Byte) :
    (s.setReg k v).setReg j w = (s.setReg j w).setReg k v := by
  have hv : k.val ≠ j.val := fun e => h (Fin.ext e.symm)
  simp only [State.setReg, Vector.set_comm v w hv]

/-- The last write of a register stands. -/
theorem setReg_setReg_same (k : Reg) (s : State) (v w : Byte) : (s.setReg k v).setReg k w = s.setReg k w := by
  simp [State.setReg]

theorem leaves_setReg {j k : Reg} (h : j ≠ k) (v : Byte) : Leaves (·.setReg k v) j where
  reg u := by simp [h]
  setReg u w := setReg_comm h u v w

/-- Every execution answers a next state. -/
theorem exec_next (i : Instr) (s : State) : ∃ t, exec i s = .next t := by
  rcases exec_cases i s with ⟨f, e⟩ | ⟨t, e, -⟩
  · exact ⟨_, e⟩
  · exact ⟨t, e⟩

/-- When a handler overwrites a change, its new state is the same with it; its fault keeps the change. -/
theorem Unseen.commit_overwritten {φ : State → State} (hφ : Unseen φ) {s : State} {x y : Checked State} (h : x = y) :
    commit (φ s) x = commit s y ∨ commit (φ s) x = mapNext φ (commit s y) := by
  subst h
  cases x with
  | ok t => exact .inl rfl
  | error f => exact .inr (hφ.raise_mapNext f)

/-! ## Flags -/

/-- Every instruction but CMP leaves the flags (R18). -/
theorem exec_flags {i : Instr} {s t : State} (h : exec i s = .next t) (hi : ∀ a b, i ≠ .cmp a b) : t.flags = s.flags := by
  rcases exec_fault_or_effect h with ⟨f, rfl⟩ | he
  · rfl
  · rcases (effect_frame he).flags with e | ⟨a, b, _, _, rfl, -⟩
    · exact e
    · exact absurd rfl (hi a b)

/-- A CMP that does not fault overwrites all three flags (R18). -/
theorem exec_cmp_setFlags {a b : Byte} {s t : State} (he : Effect settings (.cmp a b) s t) (g : Flags) :
    exec (.cmp a b) (s.setFlags g) = .next t := by
  obtain ⟨ha, hb, hp, rfl⟩ := he
  exact exec_of_effect (i := .cmp a b) ⟨ha, hb, hp, rfl⟩

/-- With other flags, the same `E` for a jump that reads it, an instruction does the same, flags aside. -/
theorem exec_setFlags (i : Instr) (s : State) (g : Flags) (hE : ∀ r, i = .jeq r ∨ i = .jne r → g.E = s.flags.E) :
    exec i (s.setFlags g) = exec i s ∨ exec i (s.setFlags g) = mapNext (·.setFlags g) (exec i s) := by
  by_cases hi : ∃ a b, i = .cmp a b
  · obtain ⟨a, b, rfl⟩ := hi
    exact (unseen_setFlags g).commit_overwritten rfl
  · rw [exec_eq_execWith, exec_eq_execWith]
    exact .inr ((unseen_setFlags g).execWith_mapNext (leaves_setFlags g) i hE fun a b e => absurd ⟨a, b, e⟩ hi)

theorem alu_flags {a b : Reg} {s t : State} {v : Option Byte}
    (h : alu .add a b s = .ok (t, v) ∨ alu .mult a b s = .ok (t, v)) : t.flags = s.flags := by
  rcases h with h | h <;> cases h <;> rfl

/-- Settles O31: the frame of an effect, and that other flags are an unseen change or one that CMP overwrites. -/
theorem flagsAreWrittenByCmpAlone : Obligations.FlagsAreWrittenByCmpAlone := by
  refine ⟨fun _ _ _ => exec_flags, fun a b s t h hf g => exec_cmp_setFlags (effect_of_exec h hf) g,
    fun i s g hE => ?_, fun _ _ _ _ _ => alu_flags⟩
  obtain ⟨t, ht⟩ := exec_next i s
  rcases exec_setFlags i s g hE with e | e
  · exact ⟨t, t.flags, ht, e.trans ht⟩
  · exact ⟨t, g, ht, by rw [ht] at e; exact e⟩

/-! ## Registers -/

/-- Does `i` write `x[k]`? The "registers written" column of R11. -/
def RegisterWritten (c : Config) (i : Instr) (k : Reg) : Prop :=
  match i with
  | .hlt => False
  | .ret => k = c.spIndex
  | .push _ => k = c.spIndex
  | .pop r => k = c.spIndex ∨ r.toNat = k.val
  | .prn _ => False
  | .call _ => k = c.spIndex
  | .jmp _ => False
  | .jeq _ => False
  | .jne _ => False
  | .ldi d _ => d.toNat = k.val
  | .mult a _ => a.toNat = k.val
  | .cmp _ _ => False

/-- A write of another register. -/
theorem setReg_reg_ne (s : State) {r k : Reg} (v : Byte) (h : k ≠ r) : (s.setReg r v).reg k = s.reg k := by
  rw [setReg_reg, if_neg h]

theorem effect_reg {c : Config} {i : Instr} {s t : State} {k : Reg} (he : Effect c i s t) (hk : ¬ RegisterWritten c i k) :
    t.reg k = s.reg k := by
  have sp (u : State) (v : Byte) (h : k ≠ c.spIndex) : (u.setSp c v).reg k = u.reg k := setReg_reg_ne u v h
  have operand (r : Byte) (h : r.toNat < 8) (hr : ¬ r.toNat = k.val) (u : State) (v : Byte) :
      (u.setReg ⟨r.toNat, h⟩ v).reg k = u.reg k := setReg_reg_ne u v fun e => hr (congrArg Fin.val e).symm
  cases i with
  | hlt => obtain ⟨-, rfl⟩ := he; rfl
  | ret => obtain ⟨-, rfl⟩ := he; exact sp s _ hk
  | push r => obtain ⟨h, -, -, rfl⟩ := he; exact sp s _ hk
  | pop r =>
    obtain ⟨h, -, -, rfl⟩ := he
    obtain ⟨hsp, hr⟩ := not_or.mp hk
    exact (sp _ _ hsp).trans (operand r h hr s _)
  | prn r => obtain ⟨h, -, rfl⟩ := he; rfl
  | call r => obtain ⟨h, -, -, rfl⟩ := he; exact sp s _ hk
  | jmp r => obtain ⟨h, rfl⟩ := he; rfl
  | jeq r => obtain ⟨h, ⟨-, rfl⟩ | ⟨-, -, rfl⟩⟩ := he <;> rfl
  | jne r => obtain ⟨h, ⟨-, rfl⟩ | ⟨-, -, rfl⟩⟩ := he <;> rfl
  | ldi d v => obtain ⟨h, -, rfl⟩ := he; exact operand d h hk s v
  | mult a b => obtain ⟨ha, hb, -, rfl⟩ := he; exact operand a ha hk s _
  | cmp a b => obtain ⟨ha, hb, -, rfl⟩ := he; rfl

/-- The operand byte that names register `k`. -/
theorem eq_ofNat_of_toNat_eq {r : Byte} {k : Reg} (h : r.toNat = k.val) : r = BitVec.ofNat 8 k.val := by
  rw [← h, BitVec.ofNat_toNat, BitVec.setWidth_eq]

/-- Settles O32: a register outside the written column is kept by every effect. -/
theorem registersWrittenAreTheListedOnes : Obligations.RegistersWrittenAreTheListedOnes := by
  intro i s t k h hne
  have hk : RegisterWritten settings i k := by
    rcases exec_fault_or_effect h with ⟨f, rfl⟩ | he
    · exact absurd rfl hne
    · exact Classical.byContradiction fun hk => hne (effect_reg he hk)
  cases i with
  | hlt | prn | jmp | jeq | jne | cmp => exact hk.elim
  | ret => exact .inl ⟨hk, .inl rfl⟩
  | push r => exact .inl ⟨hk, .inr ⟨r, .inl rfl⟩⟩
  | call r => exact .inl ⟨hk, .inr ⟨r, .inr (.inr rfl)⟩⟩
  | pop r =>
    rcases hk with hk | hk
    · exact .inl ⟨hk, .inr ⟨r, .inr (.inl rfl)⟩⟩
    · exact .inr (.inr (.inr (congrArg Instr.pop (eq_ofNat_of_toNat_eq hk))))
  | ldi d v => exact .inr (.inl ⟨v, by rw [eq_ofNat_of_toNat_eq hk]⟩)
  | mult a b => exact .inr (.inr (.inl ⟨b, by rw [eq_ofNat_of_toNat_eq hk]⟩))

/-- An operand that names another register. -/
theorem leaves_operand {r : Byte} {k : Reg} (hr : r.toNat ≠ k.val) (v : Byte) (h : r.toNat < 8) :
    Leaves (·.setReg k v) ⟨r.toNat, h⟩ := leaves_setReg (fun e => hr (congrArg Fin.val e)) v

/-- The operand byte of register `k`. -/
theorem regIdx_eq {r : Byte} {k : Reg} (h : r.toNat = k.val) : regIdx r = .ok k := by
  rw [regIdx_ok (h ▸ k.isLt)]
  exact congrArg Except.ok (Fin.ext h)

/-- LDI of `x[k]` overwrites it. -/
theorem execLdi_overwrites {d v w : Byte} {k : Reg} {s : State} (hd : d.toNat = k.val) :
    execLdi d w (s.setReg k v) = execLdi d w s ∨ execLdi d w (s.setReg k v) = mapNext (·.setReg k v) (execLdi d w s) := by
  have hφ := unseen_setReg k v
  refine hφ.commit_overwritten ?_
  simp only [regIdx_eq hd, checked_ok_bind, hφ.nextPc_eq, setReg_setReg_same]

/-- POP of `x[k]`, not the pointer, overwrites it. -/
theorem execPop_overwrites {c : Config} {r v : Byte} {k : Reg} {s : State} (hr : r.toNat = k.val) (hk : c.spIndex ≠ k) :
    execPopWith c r (s.setReg k v) = execPopWith c r s ∨
      execPopWith c r (s.setReg k v) = mapNext (·.setReg k v) (execPopWith c r s) := by
  have hφ := unseen_setReg k v
  have htop : stackTop c (s.setReg k v) = stackTop c s := by simp [stackTop, hk]
  refine hφ.commit_overwritten ?_
  simp only [regIdx_eq hr, checked_ok_bind, htop, setReg_setReg_same, hφ.nextPc_eq]

/-- With another value in a register that `i` does not read, `i` does the same. -/
theorem exec_setReg_of_not_read {i : Instr} {s : State} {k : Reg} (v : Byte) (h : registerRead i s.flags k = false) :
    exec i (s.setReg k v) = exec i s ∨ exec i (s.setReg k v) = mapNext (·.setReg k v) (exec i s) := by
  have hφ := unseen_setReg k v
  have sp_ne (hk : (k == 7) = false) : settings.spIndex ≠ k := (ne_of_beq_false hk).symm
  have sp (hk : (k == 7) = false) : Leaves (·.setReg k v) settings.spIndex := leaves_setReg (sp_ne hk) v
  have operand (r : Byte) (hr : (r.toNat == k.val) = false) (h : r.toNat < 8) : Leaves (·.setReg k v) ⟨r.toNat, h⟩ :=
    leaves_operand (by simpa using hr) v h
  cases i with
  | hlt => exact .inr hφ.execHlt_mapNext
  | ret => exact .inr (hφ.execRet_mapNext (sp h))
  | push r =>
    obtain ⟨hr, hk⟩ := Bool.or_eq_false_iff.mp h
    exact .inr (hφ.execPush_mapNext (sp hk) (operand r hr))
  | pop r =>
    by_cases hr : r.toNat = k.val
    · exact execPop_overwrites hr (sp_ne h)
    · exact .inr (hφ.execPop_mapNext (sp h) (leaves_operand hr v))
  | prn r => exact .inr (hφ.execPrn_mapNext (operand r h))
  | call r =>
    obtain ⟨hr, hk⟩ := Bool.or_eq_false_iff.mp h
    exact .inr (hφ.execCall_mapNext (sp hk) (operand r hr))
  | jmp r => exact .inr (hφ.jumpIf_mapNext fun _ => operand r h)
  | jeq r => exact .inr (hφ.execJeq_mapNext rfl fun hE => operand r (by simpa [registerRead, hE] using h))
  | jne r => exact .inr (hφ.execJne_mapNext rfl fun hE => operand r (by simpa [registerRead, hE] using h))
  | ldi d w =>
    by_cases hd : d.toNat = k.val
    · exact execLdi_overwrites hd
    · exact .inr (hφ.execLdi_mapNext (leaves_operand hd v))
  | mult a b =>
    obtain ⟨ha, hb⟩ := Bool.or_eq_false_iff.mp h
    exact .inr (hφ.execMult_mapNext (operand a ha) (operand b hb))
  | cmp a b =>
    obtain ⟨ha, hb⟩ := Bool.or_eq_false_iff.mp h
    exact .inr (hφ.execCmp_mapNext (operand a ha) (operand b hb) fun _ _ => rfl)

/-- Settles O33: another value in an unread register is an unseen change, or one that LDI or POP overwrites. -/
theorem registersReadAreTheListedOnes : Obligations.RegistersReadAreTheListedOnes := by
  intro i s k v h
  obtain ⟨t, ht⟩ := exec_next i s
  refine ⟨t, ht, ?_⟩
  rcases exec_setReg_of_not_read v h with e | e
  · exact .inl (e.trans ht)
  · exact .inr (by rw [ht] at e; exact e)

/-! ## The program counter -/

/-- Settles O35: each effect's pc, an advance being no wrap. -/
theorem programCounterAfterEachInstruction : Obligations.ProgramCounterAfterEachInstruction := by
  intro i s t _ h hf
  have he := effect_of_exec h (ne_faulted hf)
  cases i with
  | hlt => obtain ⟨hp, rfl⟩ := he; exact toNat_nextPc hp
  | ret => obtain ⟨-, rfl⟩ := he; rfl
  | push r => obtain ⟨-, -, hp, rfl⟩ := he; exact toNat_nextPc hp
  | pop r => obtain ⟨-, -, hp, rfl⟩ := he; exact toNat_nextPc hp
  | prn r => obtain ⟨-, hp, rfl⟩ := he; exact toNat_nextPc hp
  | call r => obtain ⟨hr, -, -, rfl⟩ := he; exact ⟨hr, rfl⟩
  | jmp r => obtain ⟨hr, rfl⟩ := he; exact ⟨hr, rfl⟩
  | jeq r =>
    obtain ⟨hr, ⟨hE, rfl⟩ | ⟨hE, hp, rfl⟩⟩ := he
    · exact ⟨hr, by simp [hE]⟩
    · exact ⟨hr, by rw [hE]; exact toNat_nextPc hp⟩
  | jne r =>
    obtain ⟨hr, ⟨hE, rfl⟩ | ⟨hE, hp, rfl⟩⟩ := he
    · exact ⟨hr, by simp [hE]⟩
    · exact ⟨hr, by rw [hE]; exact toNat_nextPc hp⟩
  | ldi d v => obtain ⟨-, hp, rfl⟩ := he; exact toNat_nextPc hp
  | mult a b => obtain ⟨-, -, hp, rfl⟩ := he; exact toNat_nextPc hp
  | cmp a b => obtain ⟨-, -, hp, rfl⟩ := he; exact toNat_nextPc hp

/-! ## The output -/

/-- A step appends nothing to the trace, or the operand register of the PRN that it ran without a fault. -/
theorem StepOutcome.out {c : Config} {s t : State} (h : StepOutcome c s t) :
    t.out = s.out ∨ ∃ r rest, decode (fetchBytes s) = .ok (.prn r, rest) ∧ t.status = s.status := by
  cases h with
  | raised | added | skipped => exact .inl rfl
  | executed i t hd he =>
    rcases (effect_frame he).out with e | ⟨r, rfl, -⟩
    · exact .inl e
    · obtain ⟨rest, hd⟩ := decodeWith_eq_instr.mp hd
      obtain ⟨h, -, rfl⟩ := he
      exact .inr ⟨r, rest, hd, rfl⟩

/-- A step on a PRN that does not fault emits its register (R92). -/
theorem stepWith_prn_out {c : Config} {s t : State} {r : Byte} {rest : List Byte} (h : stepWith c s = .next t)
    (hd : decode (fetchBytes s) = .ok (.prn r, rest)) (hf : ∀ f, t.status ≠ .faulted f) :
    ∃ h : r.toNat < 8, t.out = s.out ++ [s.reg ⟨r.toNat, h⟩] := by
  rw [stepWith_of_decode (stepWith_inv h).1 hd] at h
  obtain ⟨hr, -, rfl⟩ := effect_of_exec (i := .prn r) h (ne_faulted hf)
  exact ⟨hr, rfl⟩

/-- With another trace the step is the same and appends the same: it is the step from the empty trace, the old one put
before. -/
theorem stepWith_out {c : Config} {s t : State} (h : stepWith c s = .next t) :
    ∃ e, t.out = s.out ++ e ∧ ∀ o, stepWith c { s with out := o } = .next { t with out := o ++ e } := by
  let s₀ : State := { s with out := [] }
  have pre (o : List Byte) : stepWith c { s with out := o } = mapNext (State.prependOut o) (stepWith c s₀) := by
    rw [← (unseen_prependOut o).stepWith_mapNext (leaves_prependOut o) (fun _ => rfl) fun _ _ => rfl]
    simp [State.prependOut, s₀]
  have hs : mapNext (State.prependOut s.out) (stepWith c s₀) = .next t := (pre s.out).symm.trans h
  cases h₀ : stepWith c s₀ with
  | next u =>
    rw [h₀] at hs
    cases hs
    exact ⟨u.out, rfl, fun o => by rw [pre o, h₀]; rfl⟩
  | fault f => rw [h₀] at hs; cases hs
  | refused r => rw [h₀] at hs; cases hs

/-- Settles O36: the frame of a step, and that the trace is an unseen change of every step. -/
theorem outputIsWhatPrnEmitted : Obligations.OutputIsWhatPrnEmitted := by
  refine ⟨rfl, fun c s t h => ?_⟩
  obtain ⟨hs, ho⟩ := stepWith_inv h
  obtain ⟨e, he, hnew⟩ := stepWith_out h
  refine ⟨e, he, fun r rest hd hf => ?_, fun hno => ?_, hnew⟩
  · obtain ⟨hr, hout⟩ := stepWith_prn_out h hd hf
    exact ⟨hr, List.append_cancel_left (he.symm.trans hout)⟩
  · rcases ho.out with hout | ⟨r, rest, hd, hst⟩
    · simpa using he.symm.trans hout
    · rcases hno with hno | ⟨f, hf⟩
      · exact absurd hd (hno r rest)
      · simp [hf, hs] at hst

/-! ## The pc at the top of memory -/

section Advance

/-! An instruction whose earlier checks pass raises what its advance, or CALL's return address, raises (R77, R129). -/

variable {s : State} {a b v : Byte} {f : FaultName}

theorem exec_hlt_raise (e : nextPc 1 s = .error f) : exec .hlt s = raise f s := by
  simp [exec, execHlt, e]

theorem exec_prn_raise (ha : a.toNat < 8) (e : nextPc 2 s = .error f) : exec (.prn a) s = raise f s := by
  simp [exec, execPrn, regIdx_ok ha, e]

theorem exec_push_raise (ha : a.toNat < 8) (hs : s.sp settings ≠ 0) (e : nextPc 2 s = .error f) :
    exec (.push a) s = raise f s := by
  simp [exec, execPush, execPushWith, regIdx_ok ha, decrementSp_ok hs, e]

theorem exec_call_raise (ha : a.toNat < 8) (hs : s.sp settings ≠ 0) (e : nextPc 2 s = .error f) :
    exec (.call a) s = raise f s := by
  simp [exec, execCall, execCallWith, regIdx_ok ha, decrementSp_ok hs, e]

theorem exec_pop_raise (ha : a.toNat < 8) (hs : (s.setReg ⟨a.toNat, ha⟩ (stackTop settings s)).sp settings ≠ 255)
    (e : nextPc 2 s = .error f) : exec (.pop a) s = raise f s := by
  simp [exec, execPop, execPopWith, regIdx_ok ha, incrementSp_ok hs, e]

theorem jumpIf_raise (ha : a.toNat < 8) (e : nextPc 2 s = .error f) : jumpIf false a s = raise f s := by
  simp [jumpIf, regIdx_ok ha, e]

theorem exec_ldi_raise (ha : a.toNat < 8) (e : nextPc 3 s = .error f) : exec (.ldi a v) s = raise f s := by
  simp [exec, execLdi, regIdx_ok ha, e]

theorem exec_mult_raise (ha : a.toNat < 8) (hb : b.toNat < 8) (e : nextPc 3 s = .error f) :
    exec (.mult a b) s = raise f s := by
  simp [exec, execMult, regIdx_ok ha, regIdx_ok hb, e]

theorem exec_cmp_raise (ha : a.toNat < 8) (hb : b.toNat < 8) (e : nextPc 3 s = .error f) :
    exec (.cmp a b) s = raise f s := by
  simp [exec, execCmp, regIdx_ok ha, regIdx_ok hb, e]

end Advance

/-- The guard of a POP of another register looks at the pointer as it was. -/
theorem pop_guard_of_ne {s : State} {a : Byte} (ha : a.toNat < 8) (h7 : a ≠ 7) :
    (s.setReg ⟨a.toNat, ha⟩ (stackTop settings s)).sp settings = s.reg 7 := by
  have hne : settings.spIndex ≠ ⟨a.toNat, ha⟩ := fun e => h7 (BitVec.eq_of_toNat_eq (congrArg Fin.val e).symm)
  rw [setReg_sp, if_neg hne, sp_settings]

/-- The guard of a POP of the pointer looks at the loaded byte (D13). -/
theorem pop_guard_self (s : State) :
    (s.setReg ⟨(7 : Byte).toNat, by decide⟩ (stackTop settings s)).sp settings = s.memRead (s.reg 7) :=
  (setReg_sp s _ _ settings).trans (if_pos rfl)

/-- Settles O30: each instruction raises what its advance raises once the earlier checks pass. -/
theorem programCounterNeverWraps : Obligations.ProgramCounterNeverWraps := by
  refine fun s => ⟨fun hp => exec_hlt_raise (nextPc_error (by simp [hp])),
    fun a b v ha hb => ⟨fun hp => ?_, fun hp => ?_⟩⟩
  · have e : nextPc 2 s = .error .addressOutOfRange := nextPc_error (by omega)
    refine ⟨exec_prn_raise ha e, fun hs => ⟨exec_push_raise ha hs e, exec_call_raise ha hs e⟩, fun hs h7 => ?_,
      fun hs => ?_, fun hE => ?_, fun hE => ?_⟩
    · exact exec_pop_raise ha (by rwa [pop_guard_of_ne ha h7]) e
    · exact exec_pop_raise (by decide) (by rwa [pop_guard_self]) e
    · rw [exec, execJeq, hE]; exact jumpIf_raise ha e
    · rw [exec, execJne, hE]; exact jumpIf_raise ha e
  · have e : nextPc 3 s = .error .addressOutOfRange := nextPc_error (by omega)
    exact ⟨exec_ldi_raise ha e, exec_mult_raise ha hb e, exec_cmp_raise ha hb e⟩

end Sys2Proof.Machine
end

section
/-! SUPPORT. Facts that the statements about memory share: the canonical form, the first byte of a fetch, what PUSH and
CALL leave in memory, the load, and a run that has ended. -/

namespace Sys2Proof.Machine

/-! ## Writes and the canonical form -/

/-- Unlisting what was just inserted gives the memory without that address. -/
theorem Memory.erase_insert (m : Memory) (a : Nat) (v : Byte) : erase (insert a v m) a = erase m a := by
  induction m with
  | nil => simp [insert, erase]
  | cons cell m ih =>
    obtain ⟨x, w⟩ := cell
    simp only [insert]
    split
    · simp [erase]
    · simp only [erase, List.filter_cons] at ih ⊢
      rw [ih]

theorem Memory.erase_erase (m : Memory) (a : Nat) : erase (erase m a) a = erase m a := by
  simp [erase, List.filter_filter]

/-- A write repeated is one write, as data and not only to a reader (R33). -/
theorem Memory.write_write (m : Memory) (a : Nat) (v : Byte) : write (write m a v) a v = write m a v := by
  unfold write
  split
  · exact erase_erase m a
  · rw [erase_insert, erase_erase]

/-- A cell that does not read 0 is listed. -/
theorem Memory.mem_of_read {m : Memory} {a : Nat} (h : read m a ≠ 0) : (a, read m a) ∈ m := by
  induction m with
  | nil => simp [read] at h
  | cons cell m ih =>
    obtain ⟨x, w⟩ := cell
    by_cases hx : a = x
    · simp [read, hx]
    · simp only [read, if_neg hx] at h ⊢
      exact List.mem_cons_of_mem _ (ih h)

/-- In a rising list a listed cell reads as listed: no earlier one has its address. -/
theorem Memory.read_of_mem {m : Memory} (hp : m.Pairwise (fun c d => c.1 < d.1)) {c : Host.Cell} (hc : c ∈ m) :
    read m c.1 = c.2 := by
  induction m with
  | nil => simp at hc
  | cons cell m ih =>
    obtain ⟨x, w⟩ := cell
    obtain ⟨hx, hm⟩ := List.pairwise_cons.mp hp
    rcases List.mem_cons.mp hc with rfl | hc
    · simp [read]
    · rw [read, if_neg (Nat.ne_of_gt (hx c hc)), ih hm hc]

/-- The cells of a canonical memory are what it reads other than 0. -/
theorem Memory.mem_iff_read {m : Memory} (h : wf m = true) (c : Host.Cell) : c ∈ m ↔ read m c.1 = c.2 ∧ c.2 ≠ 0 := by
  obtain ⟨hcells, hp⟩ := (wf_iff m).mp h
  refine ⟨fun hc => ⟨read_of_mem hp hc, (hcells c hc).2⟩, fun ⟨hr, hv⟩ => ?_⟩
  have hm := mem_of_read (hr ▸ hv)
  rwa [hr] at hm

/-- A canonical memory lists no cell twice. -/
theorem Memory.nodup_of_wf {m : Memory} (h : wf m = true) : m.Nodup :=
  ((wf_iff m).mp h).2.imp fun hlt e => Nat.ne_of_lt hlt (congrArg Prod.fst e)

/-- Canonical memories that read the same are the same list: each is the rising list of the same cells. -/
theorem Memory.eq_of_read_eq {m n : Memory} (hm : wf m = true) (hn : wf n = true) (h : ∀ a, read m a = read n a) :
    m = n := by
  have hcells (c : Host.Cell) : c ∈ m ↔ c ∈ n := by rw [mem_iff_read hm, mem_iff_read hn, h]
  have hperm : m.Perm n := (List.perm_ext_iff_of_nodup (nodup_of_wf hm) (nodup_of_wf hn)).mpr hcells
  exact hperm.eq_of_pairwise (fun _ _ _ _ hlt hgt => absurd hgt (Nat.lt_asymm hlt)) ((wf_iff m).mp hm).2
    ((wf_iff n).mp hn).2

/-! ## The bytes at the pc -/

/-- The first byte fetched is the cell at the pc: that address always exists (R71). -/
theorem fetchBytes_head? (s : State) : (fetchBytes s).head? = some (s.memRead s.pc) := by
  have h0 : fetchByte s 0 = some (s.memRead s.pc) := by
    simp [fetchByte, State.memRead, memCells, s.pc.isLt]
  simp [fetchBytes, h0]

/-! ## What PUSH and CALL leave in memory -/

/-- PUSH leaves its operand register, as it stands afterwards, in the cell it pushes to (R96). -/
theorem effect_push_read {c : Config} {r : Byte} {s t : State} (he : Effect c (.push r) s t) :
    ∃ h : r.toNat < 8, ∀ a : Nat,
      t.mem.read a = if a = (pushAddress c s).toNat then t.reg ⟨r.toNat, h⟩ else s.mem.read a := by
  obtain ⟨h, -, -, rfl⟩ := he
  exact ⟨h, Memory.read_write s.mem _ _⟩

/-- CALL leaves the return address in the cell it pushes to (R100). -/
theorem effect_call_read {c : Config} {r : Byte} {s t : State} (he : Effect c (.call r) s t) (a : Nat) :
    t.mem.read a = if a = (pushAddress c s).toNat then s.pc + 2 else s.mem.read a := by
  obtain ⟨h, -, -, rfl⟩ := he
  exact (ofNat_pc_add 2 s) ▸ Memory.read_write s.mem _ _ a

/-- PUSH leaves the decremented pointer in the pointer, and every other register as it was (R96). -/
theorem effect_push_reg {c : Config} {r : Byte} {s t : State} (he : Effect c (.push r) s t) (k : Reg) :
    t.reg k = if k = c.spIndex then s.sp c - 1 else s.reg k := by
  obtain ⟨h, -, -, rfl⟩ := he
  exact setSp_reg s _ c k

/-- An instruction's effect changes memory only as a PUSH or CALL, at the push address (R32, R46). -/
theorem effect_mem_changed {c : Config} {i : Instr} {s t : State} (he : Effect c i s t) (hne : t.mem ≠ s.mem) :
    ∃ r v, (i = .push r ∨ i = .call r) ∧ t.mem = s.mem.write (pushAddress c s).toNat v :=
  (effect_frame he).mem.resolve_left hne

/-- A step that changes memory executed a PUSH or CALL: a fault and a skipped byte write nothing (R32, R77). -/
theorem StepOutcome.mem_changed {c : Config} {s t : State} (h : StepOutcome c s t) (hne : t.mem ≠ s.mem) :
    ∃ r rest, decode (fetchBytes s) = .ok (.push r, rest) ∨ decode (fetchBytes s) = .ok (.call r, rest) := by
  cases h with
  | raised | added | skipped => exact absurd rfl hne
  | executed i t hd he =>
    obtain ⟨rest, hd⟩ := decodeWith_eq_instr.mp hd
    obtain ⟨r, -, rfl | rfl, -⟩ := effect_mem_changed he hne
    · exact ⟨r, rest, .inl hd⟩
    · exact ⟨r, rest, .inr hd⟩

/-- A step that does not fault has the effect of the instruction that stands at the pc (R70). -/
theorem effect_of_step {s t : State} {i : Instr} {rest : List Byte} (h : step s = .next t)
    (hf : ∀ f, t.status ≠ .faulted f) (hd : decode (fetchBytes s) = .ok (i, rest)) : Effect settings i s t := by
  rw [step_eq_stepWith, stepWith_of_decode (step_inv h).1 hd, ← exec_eq_execWith] at h
  exact effect_of_exec h (ne_faulted hf)

/-! ## The load, and a run that has ended -/

theorem load_fits {prog : List Byte} {s : State} (h : prog.length ≤ 256) :
    load prog s = { s with mem := s.mem.writeAll 0 prog } := if_pos h

theorem load_tooLarge {prog : List Byte} {s : State} (h : 256 < prog.length) :
    load prog s = s.setStatus (.faulted .programTooLarge) := if_neg (Nat.not_le.mpr h)

/-- After a load that fits a cell holds the program's byte, or past its end what it held (R40). -/
theorem load_read {prog : List Byte} {s : State} (h : prog.length ≤ 256) (i : Nat) :
    (load prog s).mem.read i = if hi : i < prog.length then prog[i] else s.mem.read i := by
  rw [load_fits h]
  simp [Memory.read_writeAll]

/-- A faulted state has no step, and the stop names its fault (R131). -/
theorem stepWith_faulted {c : Config} {s : State} {f : FaultName} (h : s.status = .faulted f) :
    stepWith c s = .fault (.runFaulted f) := by
  simp [stepWith, whenRunning, h]

/-- A run from a state that is not Running stays there, whatever the fuel (R78). -/
theorem runWith_ended {c : Config} {s : State} (h : s.status ≠ .running) (k : Nat) : runWith c k s = s := by
  cases k with
  | zero => rfl
  | succ k =>
    obtain ⟨f, hf⟩ := stepWith_ended (c := c) h
    simp [runWith, hf]

end Sys2Proof.Machine
end

section
/-! SUPPORT. Proofs of the statements of 20_memory.md: what writes memory, what a cell and a fetch return, and the load. -/

namespace Sys2Proof.Machine

/-- Settles O34: a fault keeps memory, and an effect that changes it writes the one cell at the push address. -/
theorem memoryIsWrittenByPushAndCallAlone : Obligations.MemoryIsWrittenByPushAndCallAlone := by
  intro i s t a h hne
  rcases exec_fault_or_effect h with ⟨f, rfl⟩ | he
  · exact absurd rfl hne
  · obtain ⟨r, v, hi, hw⟩ := effect_mem_changed he fun e => hne (e ▸ rfl)
    refine ⟨⟨r, hi⟩, Classical.byContradiction fun ha => hne ?_⟩
    rw [hw, Memory.read_write, if_neg ha]

/-- Settles O38: the laws of `write` and of the load, and the effects of PUSH and CALL read cell by cell. -/
theorem memoryReturnsTheLastWrite : Obligations.MemoryReturnsTheLastWrite := by
  refine ⟨Memory.read_write, Memory.write_write, fun _ => rfl, fun prog s i hi hl => ?_,
    fun s t h hne => (step_inv h).2.mem_changed hne, fun r rest s t h hf => ⟨fun hd => ?_, fun hd => ?_⟩⟩
  · rw [load_read hl, dif_pos hi]
  · exact effect_push_read (effect_of_step h hf hd)
  · exact effect_call_read (effect_of_step h hf hd)

/-- Settles O39: a canonical memory is the rising list of the cells it reads other than 0. -/
theorem canonicalMemoriesAreEqualData : Obligations.CanonicalMemoriesAreEqualData :=
  fun _ _ => Memory.eq_of_read_eq

/-- Settles O40: a fetch reads memory afresh, so its first byte is the cell that the effect wrote. -/
theorem fetchSeesTheStackWrite : Obligations.FetchSeesTheStackWrite := by
  intro r s t h _ hf
  have fetched : (fetchBytes (t.setPc (pushAddress settings s))).head? =
      some (t.mem.read (pushAddress settings s).toNat) := fetchBytes_head? _
  refine ⟨fun he => ?_, fun he => ?_⟩
  · have he := effect_of_exec he (ne_faulted hf)
    obtain ⟨_, hread⟩ := effect_push_read he
    rw [fetched, hread, if_pos rfl, effect_push_reg he, sp_settings]
    by_cases h7 : r.toNat = 7
    · rw [if_pos h7, if_pos (Fin.ext h7)]
    · rw [if_neg h7, if_neg fun e => h7 (congrArg Fin.val e)]
  · rw [fetched, effect_call_read (effect_of_exec he (ne_faulted hf)), if_pos rfl]

/-- Settles O48: a load that fits writes memory alone, cell by cell as `load_read` says. -/
theorem loadPlacesTheProgram : Obligations.LoadPlacesTheProgram := by
  intro prog s hl
  refine ⟨fun i hi => ?_, fun i hi => ?_, ?_⟩
  · rw [load_read hl, dif_pos hi]
  · rw [load_read hl, dif_neg (Nat.not_lt.mpr hi)]
  · rw [load_fits hl]
    exact ⟨rfl, rfl, rfl, rfl, rfl⟩

/-- Settles O49: the load leaves a faulted state, which has no step and in which every run stays. -/
theorem tooLargeProgramNeverRuns : Obligations.TooLargeProgramNeverRuns := by
  intro c prog s hl
  have hload := load_tooLarge (s := s) hl
  have hst : (load prog s).status = .faulted .programTooLarge := by rw [hload, setStatus_status]
  have hended : (load prog s).status ≠ .running := by rw [hst]; exact Status.noConfusion
  exact ⟨hload, stepWith_faulted hst, runWith_ended hended⟩

end Sys2Proof.Machine
end

section
/-! SUPPORT. The decoder as one relation between bytes and instructions: when it answers an instruction, when it finds
operands missing, when it knows no opcode. -/

namespace Sys2Proof

/-! ## Operands -/

/-- The operands of an instruction are as many as its opcode's width says (R50). -/
theorem operands_length (i : Instr) : i.operands.length = i.opcode.width - 1 := by cases i <;> rfl

theorem width_bounds (k : Opcode) : 1 ≤ k.width ∧ k.width ≤ 3 := by cases k <;> decide

/-- The operand decoder reads an instruction's operands back, whatever follows. -/
theorem decodeOperands_operands (i : Instr) (rest : List Byte) :
    decodeOperands i.opcode (i.operands ++ rest) = .ok (i, rest) := by cases i <;> rfl

/-- The operand decoder answers the instructions of its opcode alone, each from its own operand bytes (R51, R52). -/
theorem decodeOperands_eq_ok {k : Opcode} {bytes rest : List Byte} {i : Instr} :
    decodeOperands k bytes = .ok (i, rest) ↔ i.opcode = k ∧ bytes = i.operands ++ rest := by
  refine ⟨fun h => ?_, fun ⟨hk, hb⟩ => hk ▸ hb ▸ decodeOperands_operands i rest⟩
  cases k with
  | hlt | ret => cases h; exact ⟨rfl, rfl⟩
  | push | pop | prn | call | jmp | jeq | jne => obtain ⟨a, rfl, rfl⟩ := oneOperand_eq_ok.mp h; exact ⟨rfl, rfl⟩
  | ldi | mult | cmp => obtain ⟨a, b, rfl, rfl⟩ := twoOperands_eq_ok.mp h; exact ⟨rfl, rfl⟩

theorem oneOperand_eq_error {f : Byte → Instr} {bytes : List Byte} {r : Reject} :
    oneOperand f bytes = .error r ↔ r = .operandMissing ∧ bytes.length + 1 < 2 := by
  cases bytes with
  | nil => simp [oneOperand, eq_comm]
  | cons => simp [oneOperand]

theorem twoOperands_eq_error {f : Byte → Byte → Instr} {bytes : List Byte} {r : Reject} :
    twoOperands f bytes = .error r ↔ r = .operandMissing ∧ bytes.length + 1 < 3 := by
  match bytes with
  | [] | [_] => simp [twoOperands, eq_comm]
  | _ :: _ :: _ => simp [twoOperands]

/-- The operand decoder fails in one way: fewer bytes follow than the width asks for (R54, R74). -/
theorem decodeOperands_eq_error {k : Opcode} {bytes : List Byte} {r : Reject} :
    decodeOperands k bytes = .error r ↔ r = .operandMissing ∧ bytes.length + 1 < k.width := by
  cases k with
  | hlt | ret => simp [decodeOperands, Opcode.width]
  | push | pop | prn | call | jmp | jeq | jne => exact oneOperand_eq_error
  | ldi | mult | cmp => exact twoOperands_eq_error

/-! ## Instructions -/

/-- Decoding answers an instruction exactly from its opcode's value and its operands. -/
theorem decode_cons_eq_ok {op : Byte} {bytes rest : List Byte} {i : Instr} :
    decode (op :: bytes) = .ok (i, rest) ↔ op = i.opcode.value ∧ bytes = i.operands ++ rest := by
  constructor
  · intro h
    cases e : opcodeOf op with
    | none => rw [decode_unknown e] at h; cases h
    | some k =>
      rw [decode_known e] at h
      obtain ⟨rfl, hb⟩ := decodeOperands_eq_ok.mp h
      exact ⟨opcodeOf_eq_some.mp e, hb⟩
  · rintro ⟨rfl, rfl⟩
    rw [decode_known (opcodeOf_value _), decodeOperands_operands]

theorem decode_eq_ok {bytes rest : List Byte} {i : Instr} :
    decode bytes = .ok (i, rest) ↔ bytes = encode i ++ rest := by
  cases bytes with
  | nil => simp [decode, encode]
  | cons op bytes => rw [decode_cons_eq_ok, encode, List.cons_append, List.cons.injEq]

theorem decode_encode (i : Instr) (rest : List Byte) : decode (encode i ++ rest) = .ok (i, rest) :=
  decode_eq_ok.mpr rfl

/-! ## Unknown opcodes -/

/-- Decoding rejects a byte as an unknown opcode exactly when the table does, whatever follows (R55). -/
theorem decode_eq_unknownOpcode {op : Byte} {bytes : List Byte} :
    decode (op :: bytes) = .error (.unknownOpcode op) ↔ opcodeOf op = none := by
  refine ⟨fun h => ?_, fun h => decode_unknown h bytes⟩
  cases e : opcodeOf op with
  | none => rfl
  | some k =>
    rw [decode_known e, decodeOperands_eq_error] at h
    cases h.1

theorem mem_rows (k : Opcode) : k ∈ Opcode.rows := by cases k <;> decide

/-- A byte stands for no opcode exactly when its number is none of the twelve of the "value (decimal)" column (R56). -/
theorem opcodeOf_eq_none_iff_toNat {op : Byte} :
    opcodeOf op = none ↔ op.toNat ∉ [1, 17, 69, 70, 71, 80, 84, 85, 86, 130, 162, 167] := by
  have column : Opcode.rows.map (fun k => k.value.toNat) = [1, 17, 69, 70, 71, 80, 84, 85, 86, 130, 162, 167] := rfl
  rw [opcodeOf_eq_none, ← column]
  simp [mem_rows, BitVec.toNat_inj, eq_comm]

/-! ## The bits of the opcode values (R58) -/

theorem value_bits_7_6 (k : Opcode) : k.value.toNat / 64 + 1 = k.width := by cases k <;> rfl

theorem value_bit_5 (k : Opcode) : k.value.getLsbD 5 = true ↔ k = .mult ∨ k = .cmp := by cases k <;> decide

theorem value_bit_4 (k : Opcode) :
    k.value.getLsbD 4 = true ↔ k = .ret ∨ k = .call ∨ k = .jmp ∨ k = .jeq ∨ k = .jne := by cases k <;> decide

end Sys2Proof

namespace Sys2Proof.Machine

/-! ## A step on an unknown opcode -/

theorem fetchBytes_eq_cons (s : State) : ∃ rest, fetchBytes s = s.memRead s.pc :: rest :=
  List.head?_eq_some_iff.mp (fetchBytes_head? s)

/-- Without an ADD opcode the machine rejects what the decoder does not know (D18). -/
theorem decodeWith_unknownOpcode {c : Config} {op : Byte} (hc : c.addOpcode = none) (h : opcodeOf op = none)
    (bytes : List Byte) : decodeWith c (op :: bytes) = .rejected (.unknownOpcode op) := by
  simp [decodeWith, decode_unknown h, hc]

/-- A step on an unknown opcode is what the policy says (R73). -/
theorem stepWith_unknownOpcode {c : Config} {s : State} (hc : c.addOpcode = none) (hs : s.status = .running)
    (h : opcodeOf (s.memRead s.pc) = none) : stepWith c s = unknownOpcode c.unknownOpcode s := by
  obtain ⟨rest, hf⟩ := fetchBytes_eq_cons s
  rw [stepWith, whenRunning_running hs, cycle, hf, decodeWith_unknownOpcode hc h]
  rfl

end Sys2Proof.Machine
end

section
/-! SUPPORT. Proofs of the statements of 30_encoding.md: encoding and decoding, the opcode table and its unknown bytes. -/

namespace Sys2Proof.Machine

/-- Settles O6: the operand decoder of each opcode reads the operands of that opcode's instructions and nothing else. -/
theorem decodeInvertsEncode : Obligations.DecodeInvertsEncode := fun _ _ _ => decode_eq_ok

/-- Settles O7: a row is the encoding of its instruction, and a byte outside the value column is unknown. -/
theorem opcodeTableIsExact : Obligations.OpcodeTableIsExact :=
  ⟨decode_encode .hlt, decode_encode .ret, fun r => decode_encode (.push r), fun r => decode_encode (.pop r),
    fun r => decode_encode (.prn r), fun r => decode_encode (.call r), fun r => decode_encode (.jmp r),
    fun r => decode_encode (.jeq r), fun r => decode_encode (.jne r), fun d v => decode_encode (.ldi d v),
    fun a b => decode_encode (.mult a b), fun a b => decode_encode (.cmp a b),
    fun _ rest h => decode_unknown (opcodeOf_eq_none_iff_toNat.mpr h) rest⟩

/-- Settles O8: the listed ranges are the complement of the value column, and the machine's policy is `fault`. -/
theorem unknownOpcodesAreTheListedRanges : Obligations.UnknownOpcodesAreTheListedRanges := by
  refine ⟨fun op rest => ?_, fun s hs h => ?_⟩
  · rw [decode_eq_unknownOpcode, opcodeOf_eq_none_iff_toNat]
    simp only [List.mem_cons, List.not_mem_nil, or_false]
    omega
  · rw [step_eq_stepWith, stepWith_unknownOpcode settings_addOpcode hs (opcodeOf_eq_none.mpr h)]
    rfl

/-- Settles O9: the operand decoder fails only for want of bytes, and the operands it answers are the first of them. -/
theorem lengthFollowsFromOpcode : Obligations.LengthFollowsFromOpcode := by
  intro op k bytes hk
  obtain ⟨hlow, hhigh⟩ := width_bounds k
  rw [decode_known hk]
  refine ⟨hlow, hhigh, by simp [decodeOperands_eq_error], fun i rest h => ?_⟩
  obtain ⟨rfl, rfl⟩ := decodeOperands_eq_ok.mp h
  exact ⟨rfl, (List.take_left' (operands_length i)).symm, (List.drop_left' (operands_length i)).symm⟩

/-- Settles O10: the three observations, each read off the twelve values. -/
theorem opcodeBitsMatchTheAudit : Obligations.OpcodeBitsMatchTheAudit :=
  fun k => ⟨value_bits_7_6 k, value_bit_5 k, value_bit_4 k⟩

end Sys2Proof.Machine
end

section
/-! SUPPORT. What stands at the pc: the bytes of a fetch as cells, and a step for each thing they can be. -/

namespace Sys2Proof

theorem encode_length (i : Instr) : (encode i).length = i.opcode.width := by cases i <;> rfl

end Sys2Proof

namespace Sys2Proof.Machine

/-! ## The bytes of a fetch -/

/-- A fetch reads the three cells from the pc on, as far as memory reaches (R71, R74). -/
theorem fetchBytes_eq_take (s : State) : fetchBytes s =
    [s.mem.read s.pc.toNat, s.mem.read (s.pc.toNat + 1), s.mem.read (s.pc.toNat + 2)].take (256 - s.pc.toNat) := by
  have hp : s.pc.toNat < 256 := s.pc.isLt
  obtain h | h | h : s.pc.toNat = 255 ∨ s.pc.toNat = 254 ∨ s.pc.toNat + 2 < 256 := by omega
  · simp [fetchBytes, fetchByte, memCells, h]
  · simp [fetchBytes, fetchByte, memCells, h]
  · have h1 : s.pc.toNat + 1 < 256 := by omega
    rw [List.take_of_length_le (by simp; omega)]
    simp [fetchBytes, fetchByte, memCells, hp, h, h1]

theorem fetchBytes_length (s : State) : (fetchBytes s).length = min 3 (256 - s.pc.toNat) := by
  rw [fetchBytes_eq_take, List.length_take, Nat.min_comm]
  rfl

theorem fetchBytes_getElem (s : State) (k : Nat) (h : k < (fetchBytes s).length) :
    (fetchBytes s)[k] = s.mem.read (s.pc.toNat + k) := by
  have hk : k < 3 := by rw [fetchBytes_length] at h; omega
  simp only [fetchBytes_eq_take, List.getElem_take]
  match k, hk with
  | 0, _ | 1, _ | 2, _ => rfl

/-- A fetch starts with the at most three bytes that stand in the cells from the pc on. -/
theorem prefix_fetchBytes {s : State} {bs : List Byte} (h3 : bs.length ≤ 3) (hp : s.pc.toNat + bs.length ≤ 256)
    (h : ∀ (k : Nat) (hk : k < bs.length), s.mem.read (s.pc.toNat + k) = bs[k]) : bs <+: fetchBytes s := by
  have hl : bs.length ≤ (fetchBytes s).length := by rw [fetchBytes_length]; omega
  rw [List.prefix_iff_getElem]
  exact ⟨hl, fun k hk => by rw [fetchBytes_getElem, h k hk]⟩

/-- An instruction that a fetch decodes to lies inside memory, byte by byte in the cells from the pc on. -/
theorem cells_of_decode {s : State} {i : Instr} {rest : List Byte} (hd : decode (fetchBytes s) = .ok (i, rest)) :
    s.pc.toNat + i.opcode.width ≤ 256 ∧
      ∀ (k : Nat) (hk : k < (encode i).length), s.mem.read (s.pc.toNat + k) = (encode i)[k] := by
  have hf : fetchBytes s = encode i ++ rest := decode_eq_ok.mp hd
  have hl : i.opcode.width + rest.length = min 3 (256 - s.pc.toNat) := by
    rw [← fetchBytes_length, hf, List.length_append, encode_length]
  have hp : s.pc.toNat < 256 := s.pc.isLt
  refine ⟨by omega, fun k hk => ?_⟩
  rw [← fetchBytes_getElem s k (by rw [hf, List.length_append]; omega)]
  simp only [hf, List.getElem_append_left hk]

/-- What stands at the pc: no opcode, an opcode whose operands lie past memory, or an instruction (R72, R74). -/
theorem fetch_cases (s : State) : opcodeOf (s.memRead s.pc) = none ∨
    (∃ k, opcodeOf (s.memRead s.pc) = some k ∧ 256 < s.pc.toNat + k.width ∧
      decode (fetchBytes s) = .error .operandMissing) ∨
    ∃ i rest, decode (fetchBytes s) = .ok (i, rest) := by
  obtain ⟨bytes, hf⟩ := fetchBytes_eq_cons s
  cases hk : opcodeOf (s.memRead s.pc) with
  | none => exact .inl rfl
  | some k =>
    refine .inr ?_
    cases hd : decode (fetchBytes s) with
    | ok p => exact .inr ⟨p.1, p.2, rfl⟩
    | error r =>
      have hl : bytes.length + 1 = min 3 (256 - s.pc.toNat) := by rw [← fetchBytes_length, hf, List.length_cons]
      rw [hf, decode_known hk, decodeOperands_eq_error] at hd
      obtain ⟨rfl, hw⟩ := hd
      have h3 : k.width ≤ 3 := (width_bounds k).2
      exact .inl ⟨k, rfl, by omega, rfl⟩

/-! ## The step on each -/

theorem step_of_decode {s : State} {i : Instr} {rest : List Byte} (hs : s.status = .running)
    (hd : decode (fetchBytes s) = .ok (i, rest)) : step s = exec i s := by
  rw [step_eq_stepWith, stepWith_of_decode hs hd, exec_eq_execWith]

/-- A step on an opcode whose operands lie past memory raises `AddressOutOfRange` (R74). -/
theorem stepWith_of_operandMissing {c : Config} {s : State} (hs : s.status = .running)
    (hd : decode (fetchBytes s) = .error .operandMissing) : stepWith c s = raise .addressOutOfRange s := by
  simp [stepWith, whenRunning_running hs, cycle, decodeWith, hd, execRejected]

/-- A byte that the table does not know and that is not `ADD_OPCODE` is rejected, at every setting (R57, D18). -/
theorem decodeWith_unlisted {c : Config} {op : Byte} (hc : c.addOpcode ≠ some op) (h : opcodeOf op = none)
    (bytes : List Byte) : decodeWith c (op :: bytes) = .rejected (.unknownOpcode op) := by
  simp [decodeWith, decode_unknown h, hc]

/-- A step on such a byte is what the policy says (R73). -/
theorem stepWith_unlisted {c : Config} {s : State} (hs : s.status = .running)
    (hc : c.addOpcode ≠ some (s.memRead s.pc)) (h : opcodeOf (s.memRead s.pc) = none) :
    stepWith c s = unknownOpcode c.unknownOpcode s := by
  obtain ⟨rest, hf⟩ := fetchBytes_eq_cons s
  rw [stepWith, whenRunning_running hs, cycle, hf, decodeWith_unlisted hc h]
  rfl

/-- Skipping a byte advances the pc by 1, or faults at the top of memory (R73, D6). -/
theorem unknownOpcode_skip1 (s : State) : unknownOpcode .skip1 s =
    if s.pc.toNat + 1 < 256 then .next (s.setPc (s.pc + 1)) else raise .addressOutOfRange s := by
  by_cases h : s.pc.toNat + 1 < 256
  · simp [unknownOpcode, nextPc_ok h, h, ofNat_pc_add]
  · simp [unknownOpcode, nextPc_error (Nat.not_lt.mp h), h]

end Sys2Proof.Machine
end

section
/-! SUPPORT. The checks of one instruction in the order of R79: which fault they name, that the instruction raises it, and
that an instruction whose checks name none has its effect. -/

namespace Sys2Proof

/-- Does the instruction compute the next sequential pc, or CALL its return address? RET and a taken jump do not (R76). -/
def Instr.advances (i : Instr) (f : Flags) : Bool :=
  match i with
  | .ret | .jmp _ => false
  | .jeq _ => !f.E
  | .jne _ => f.E
  | _ => true

theorem isRegIndex_iff {b : Byte} : isRegIndex b = true ↔ b.toNat < 8 := by simp [isRegIndex, regCount]

theorem isRegIndex_eq_false {b : Byte} : isRegIndex b = false ↔ 8 ≤ b.toNat := by simp [isRegIndex, regCount]

end Sys2Proof

namespace Sys2Proof.Machine

/-- The fault of the stack guard: PUSH and CALL at a pointer of 0, RET and POP at 255, where POP of the pointer itself
looks at the loaded byte (R98, R124, R125; D13). -/
def stackFault (c : Config) (i : Instr) (s : State) : Option FaultName :=
  match i with
  | .push _ | .call _ => if s.sp c = 0 then some .stackOverflow else none
  | .ret => if s.sp c = 255 then some .stackUnderflow else none
  | .pop r => if (if r.toNat = c.spIndex.val then stackTop c s else s.sp c) = 255 then some .stackUnderflow else none
  | _ => none

/-- The fault that an instruction's checks name: register operands, then the stack guard, then the pc (R79, R129). -/
def instrFault (c : Config) (i : Instr) (s : State) : Option FaultName :=
  if i.wellFormed = false then some .registerIndexOutOfRange
  else (stackFault c i s).or
    (if i.advances s.flags = true ∧ 256 ≤ s.pc.toNat + i.opcode.width then some .addressOutOfRange else none)

/-! ## Register operands -/

section RegisterOperands

variable {s : State} {a b : Byte}

theorem commit_regIdx_error {k : Reg → Checked State} (h : isRegIndex a = false) :
    commit s (do k (← regIdx a)) = raise .registerIndexOutOfRange s := by
  simp [regIdx_error (isRegIndex_eq_false.mp h)]

theorem commit_regIdx_regIdx_error {k : Reg → Reg → Checked State} (h : (isRegIndex a && isRegIndex b) = false) :
    commit s (do k (← regIdx a) (← regIdx b)) = raise .registerIndexOutOfRange s := by
  by_cases ha : a.toNat < 8
  · have hb : 8 ≤ b.toNat := isRegIndex_eq_false.mp (by simpa [isRegIndex_iff.mpr ha] using h)
    simp [regIdx_ok ha, regIdx_error hb]
  · simp [regIdx_error (Nat.not_lt.mp ha)]

end RegisterOperands

theorem execWith_illFormed (c : Config) {i : Instr} {s : State} (h : i.wellFormed = false) :
    execWith c i s = raise .registerIndexOutOfRange s := by
  cases i with
  | hlt | ret => cases h
  | push | pop | prn | call | jmp | jeq | jne | ldi => exact commit_regIdx_error h
  | mult | cmp => exact commit_regIdx_regIdx_error h

/-! ## The stack guard -/

/-- The pointer that POP's guard looks at (R97, D13). -/
theorem setReg_stackTop_sp (c : Config) {r : Byte} (h : r.toNat < 8) (s : State) :
    (s.setReg ⟨r.toNat, h⟩ (stackTop c s)).sp c = if r.toNat = c.spIndex.val then stackTop c s else s.sp c := by
  rw [setReg_sp]
  simp only [Fin.ext_iff, eq_comm]

theorem execWith_stackFault {c : Config} {i : Instr} {s : State} {f : FaultName} (hw : i.wellFormed = true)
    (h : stackFault c i s = some f) : execWith c i s = raise f s := by
  cases i with
  | push r =>
    obtain ⟨hs, rfl⟩ := by simpa [stackFault] using h
    simp [execWith, execPushWith, regIdx_ok (isRegIndex_iff.mp hw), decrementSp_error hs]
  | call r =>
    obtain ⟨hs, rfl⟩ := by simpa [stackFault] using h
    simp [execWith, execCallWith, regIdx_ok (isRegIndex_iff.mp hw), decrementSp_error hs]
  | ret =>
    obtain ⟨hs, rfl⟩ := by simpa [stackFault] using h
    simp [execWith, execRetWith, incrementSp_error hs]
  | pop r =>
    have hr : r.toNat < 8 := isRegIndex_iff.mp hw
    rw [stackFault, ← setReg_stackTop_sp c hr] at h
    obtain ⟨hs, ⟨⟩⟩ := Option.ite_none_right_eq_some.mp h
    simp [execWith, execPopWith, regIdx_ok hr, incrementSp_error hs]
  | hlt | prn | jmp | jeq | jne | ldi | mult | cmp => cases h

theorem stackFault_ne_registerIndex (c : Config) (i : Instr) (s : State) :
    stackFault c i s ≠ some .registerIndexOutOfRange := by
  cases i with
  | push | call | ret | pop => simp [stackFault]
  | hlt | prn | jmp | jeq | jne | ldi | mult | cmp => exact nofun

/-! ## The pc, and the effect when every check passes -/

theorem exec_pastEnd {i : Instr} {s : State} (hw : i.wellFormed = true) (hs : stackFault settings i s = none)
    (ha : i.advances s.flags = true) (hp : 256 ≤ s.pc.toNat + i.opcode.width) : exec i s = raise .addressOutOfRange s := by
  have e : nextPc i.opcode.width s = .error .addressOutOfRange := nextPc_error hp
  cases i with
  | hlt => exact exec_hlt_raise e
  | ret | jmp => cases ha
  | push r => exact exec_push_raise (isRegIndex_iff.mp hw) (by simpa [stackFault] using hs) e
  | call r => exact exec_call_raise (isRegIndex_iff.mp hw) (by simpa [stackFault] using hs) e
  | pop r =>
    have hr : r.toNat < 8 := isRegIndex_iff.mp hw
    rw [stackFault, ← setReg_stackTop_sp settings hr] at hs
    exact exec_pop_raise hr (by simpa using hs) e
  | prn r => exact exec_prn_raise (isRegIndex_iff.mp hw) e
  | jeq r =>
    have hE : s.flags.E = false := by simpa [Instr.advances] using ha
    rw [exec, execJeq, hE]
    exact jumpIf_raise (isRegIndex_iff.mp hw) e
  | jne r =>
    have hE : s.flags.E = true := by simpa [Instr.advances] using ha
    rw [exec, execJne, hE]
    exact jumpIf_raise (isRegIndex_iff.mp hw) e
  | ldi d v => exact exec_ldi_raise (isRegIndex_iff.mp hw) e
  | mult a b =>
    obtain ⟨ha, hb⟩ := Bool.and_eq_true_iff.mp hw
    exact exec_mult_raise (isRegIndex_iff.mp ha) (isRegIndex_iff.mp hb) e
  | cmp a b =>
    obtain ⟨ha, hb⟩ := Bool.and_eq_true_iff.mp hw
    exact exec_cmp_raise (isRegIndex_iff.mp ha) (isRegIndex_iff.mp hb) e

theorem effect_of_checks {c : Config} {i : Instr} {s : State} (hw : i.wellFormed = true) (hs : stackFault c i s = none)
    (hp : i.advances s.flags = true → s.pc.toNat + i.opcode.width < 256) : ∃ t, Effect c i s t := by
  cases i with
  | hlt => exact ⟨_, hp rfl, rfl⟩
  | ret => exact ⟨_, by simpa [stackFault] using hs, rfl⟩
  | push r | call r => exact ⟨_, isRegIndex_iff.mp hw, by simpa [stackFault] using hs, hp rfl, rfl⟩
  | pop r =>
    have hr : r.toNat < 8 := isRegIndex_iff.mp hw
    rw [stackFault, ← setReg_stackTop_sp c hr] at hs
    exact ⟨_, hr, by simpa using hs, hp rfl, rfl⟩
  | prn r | ldi r v => exact ⟨_, isRegIndex_iff.mp hw, hp rfl, rfl⟩
  | jmp r => exact ⟨_, isRegIndex_iff.mp hw, rfl⟩
  | jeq r =>
    cases hE : s.flags.E with
    | true => exact ⟨_, isRegIndex_iff.mp hw, .inl ⟨hE, rfl⟩⟩
    | false => exact ⟨_, isRegIndex_iff.mp hw, .inr ⟨hE, hp (by simp [Instr.advances, hE]), rfl⟩⟩
  | jne r =>
    cases hE : s.flags.E with
    | true => exact ⟨_, isRegIndex_iff.mp hw, .inr ⟨hE, hp hE, rfl⟩⟩
    | false => exact ⟨_, isRegIndex_iff.mp hw, .inl ⟨hE, rfl⟩⟩
  | mult a b | cmp a b =>
    obtain ⟨ha, hb⟩ := Bool.and_eq_true_iff.mp hw
    exact ⟨_, isRegIndex_iff.mp ha, isRegIndex_iff.mp hb, hp rfl, rfl⟩

/-! ## All checks together -/

/-- An instruction raises the fault that its checks name. -/
theorem exec_of_instrFault_eq_some {i : Instr} {s : State} {f : FaultName} (h : instrFault settings i s = some f) :
    exec i s = raise f s := by
  cases hw : i.wellFormed with
  | false =>
    obtain rfl : .registerIndexOutOfRange = f := by simpa [instrFault, hw] using h
    rw [exec_eq_execWith, execWith_illFormed settings hw]
  | true =>
    cases hs : stackFault settings i s with
    | some g =>
      obtain rfl : g = f := by simpa [instrFault, hw, hs] using h
      rw [exec_eq_execWith, execWith_stackFault hw hs]
    | none =>
      obtain ⟨⟨ha, hp⟩, rfl⟩ := by simpa [instrFault, hw, hs] using h
      exact exec_pastEnd hw hs ha hp

theorem effect_of_instrFault_eq_none {c : Config} {i : Instr} {s : State} (h : instrFault c i s = none) :
    ∃ t, Effect c i s t := by
  cases hw : i.wellFormed with
  | false => simp [instrFault, hw] at h
  | true =>
    obtain ⟨hs, hp⟩ : stackFault c i s = none ∧ (i.advances s.flags = true → s.pc.toNat + i.opcode.width < 256) := by
      simpa [instrFault, hw] using h
    exact effect_of_checks hw hs hp

/-- From Running an effect leaves Running or Halted: it is no fault (R20). -/
theorem effect_status {c : Config} {i : Instr} {s t : State} (he : Effect c i s t) (hs : s.status = .running) :
    t.status = .running ∨ t.status = .halted := by
  rcases (effect_frame he).status with e | ⟨-, e⟩
  · exact .inl (e.trans hs)
  · exact .inr e

/-- From Running an instruction answers a faulted state exactly when its checks name that fault. -/
theorem exec_eq_raise_iff {i : Instr} {s : State} {f : FaultName} (hs : s.status = .running) :
    exec i s = raise f s ↔ instrFault settings i s = some f := by
  refine ⟨fun h => ?_, exec_of_instrFault_eq_some⟩
  cases hf : instrFault settings i s with
  | some g =>
    have e := Host.Outcome.next.inj ((exec_of_instrFault_eq_some hf).symm.trans h)
    rw [Status.faulted.inj (congrArg State.status e)]
  | none =>
    obtain ⟨t, he⟩ := effect_of_instrFault_eq_none hf
    obtain rfl := Host.Outcome.next.inj ((exec_of_effect he).symm.trans h)
    rcases effect_status he hs with e | e <;> cases e

/-- The register operands alone decide whether the checks name `RegisterIndexOutOfRange`, being looked at first (D11). -/
theorem instrFault_eq_registerIndex_iff {c : Config} {i : Instr} {s : State} :
    instrFault c i s = some .registerIndexOutOfRange ↔ i.wellFormed = false := by
  refine ⟨fun h => ?_, fun h => if_pos h⟩
  cases hw : i.wellFormed with
  | false => rfl
  | true => simp [instrFault, hw, Option.or_eq_some_iff, stackFault_ne_registerIndex] at h

end Sys2Proof.Machine
end

section
/-! SUPPORT. The function `faultReported`, which reads raw bytes, on each thing that can stand at the pc. -/

namespace Sys2Proof.Machine

theorem faultReported_of_unknownOpcode (c : Config) {s : State} (h : opcodeOf (s.memRead s.pc) = none) :
    faultReported c s = some .illegalInstruction := if_pos (opcodeOf_eq_none_iff_toNat.mp h)

/-- When operands lie past memory, the fault read off the bytes is that of their address (R74, R122). -/
theorem faultReported_of_operandMissing (c : Config) {s : State} {k : Opcode} (hk : opcodeOf (s.memRead s.pc) = some k)
    (hp : 256 < s.pc.toNat + k.width) : faultReported c s = some .addressOutOfRange := by
  have hop : s.mem.read s.pc.toNat = k.value := opcodeOf_eq_some.mp hk
  have hlt : s.pc.toNat < 256 := s.pc.isLt
  cases k with
  | hlt | ret => simp [Opcode.width] at hp; omega
  | push | pop | prn | call | jmp | jeq | jne =>
    have hp : s.pc.toNat = 255 := by simp [Opcode.width] at hp; omega
    rw [hp] at hop
    simp [faultReported, hop, Opcode.value, hp]
  | ldi | mult | cmp =>
    have hp : 254 ≤ s.pc.toNat := by simp [Opcode.width] at hp; omega
    simp [faultReported, hop, Opcode.value, hp]

theorem ite_some_or {α : Type} (p : Prop) [Decidable p] (a : α) (o : Option α) :
    (if p then some a else none).or o = if p then some a else o := by
  split <;> rfl

/-- On an instruction that decodes, the fault read off the bytes is the one that its checks name (R79): inside memory the
pc check fails at one address alone, and the guards on bytes are guards on numbers. -/
theorem faultReported_of_decode (c : Config) {s : State} {i : Instr} {rest : List Byte}
    (hd : decode (fetchBytes s) = .ok (i, rest)) : faultReported c s = instrFault c i s := by
  obtain ⟨hp, h⟩ := cells_of_decode hd
  have hop : s.mem.read s.pc.toNat = i.opcode.value := h 0 (by simp [encode])
  have hend : 256 ≤ s.pc.toNat + i.opcode.width ↔ s.pc.toNat = 256 - i.opcode.width := by omega
  have h0 (v : Byte) : v = 0#8 ↔ v.toNat = 0 := BitVec.toNat_inj.symm
  have h255 (v : Byte) : v = 255#8 ↔ v.toNat = 255 := BitVec.toNat_inj.symm
  simp only [instrFault, hend]
  cases i with
  | hlt | ret =>
    simp [faultReported, hop, Instr.wellFormed, stackFault, Instr.advances, Instr.opcode, Opcode.width, Opcode.value, h255]
  | push r | pop r | prn r | call r | jmp r | jeq r | jne r =>
    have h1 : s.mem.read (s.pc.toNat + 1) = r := h 1 (by simp [encode, Instr.operands])
    have hp : s.pc.toNat ≠ 255 := by simp [Instr.opcode, Opcode.width] at hp; omega
    simp [faultReported, hop, h1, hp, Instr.wellFormed, isRegIndex_eq_false, stackFault, Instr.advances, Instr.opcode,
      Opcode.width, Opcode.value, h0, h255, ite_some_or, stackTop, State.memRead, apply_ite BitVec.toNat] <;> rfl
  | ldi a b | mult a b | cmp a b =>
    have h1 : s.mem.read (s.pc.toNat + 1) = a := h 1 (by simp [encode, Instr.operands])
    have h2 : s.mem.read (s.pc.toNat + 2) = b := h 2 (by simp [encode, Instr.operands])
    have hp : ¬ 254 ≤ s.pc.toNat := by simp [Instr.opcode, Opcode.width] at hp; omega
    simp [faultReported, hop, h1, h2, hp, Instr.wellFormed, isRegIndex_eq_false, stackFault, Instr.advances,
      Instr.opcode, Opcode.width, Opcode.value, Bool.and_eq_false_iff, -Bool.and_eq_false_imp]

end Sys2Proof.Machine
end

section
/-! SUPPORT. Proofs of the statements of 40_fetch_decode.md: the step, the fault it reports, and the policy `skip1`. -/

namespace Sys2Proof.Machine

/-- Settles O11: cells that hold an encoding are a fetch that starts with it, and decoding reads it back. -/
theorem stepRunsTheDecodedInstruction : Obligations.StepRunsTheDecodedInstruction := by
  refine ⟨fun s i rest => step_of_decode, fun s i hs hp h => ?_⟩
  have h3 : (encode i).length ≤ 3 := by rw [encode_length]; exact (width_bounds _).2
  obtain ⟨rest, hr⟩ := prefix_fetchBytes h3 hp h
  exact step_of_decode hs (decode_eq_ok.mpr hr.symm)

/-- Settles O12: from Running every outcome of a step is a next state, and outside it the status decides alone. -/
theorem stepExistsOnlyWhileRunning : Obligations.StepExistsOnlyWhileRunning := by
  refine fun s => ⟨fun hs => ?_, fun h => by simp [step, whenRunning, h], fun h => by simp [step, whenRunning, h],
    fun f h => by rw [step_eq_stepWith, stepWith_faulted h]⟩
  obtain ⟨t, h, -⟩ := stepWith_cases settings hs
  exact ⟨t, step_eq_stepWith s ▸ h⟩

/-- Settles O15: the three cases of a fetch; on an instruction both sides are what its checks name. -/
theorem faultReportedIsExact : Obligations.FaultReportedIsExact := by
  intro s hs
  rcases fetch_cases s with hk | ⟨k, hk, hp, hd⟩ | ⟨i, rest, hd⟩
  · rw [faultReported_of_unknownOpcode settings hk, step_eq_stepWith, stepWith_unknownOpcode settings_addOpcode hs hk]
    exact ⟨by rintro f ⟨⟩; rfl, nofun⟩
  · rw [faultReported_of_operandMissing settings hk hp, step_eq_stepWith, stepWith_of_operandMissing hs hd]
    exact ⟨by rintro f ⟨⟩; rfl, nofun⟩
  · rw [faultReported_of_decode settings hd, step_of_decode hs hd]
    refine ⟨fun f => exec_of_instrFault_eq_some, fun h => ?_⟩
    obtain ⟨t, he⟩ := effect_of_instrFault_eq_none h
    exact ⟨t, exec_of_effect he, effect_status he hs⟩

/-- Settles O28: the checks name that fault for the register operands alone, and no effect is a faulted state. -/
theorem badRegisterIndexFaults : Obligations.BadRegisterIndexFaults := fun _ _ hs =>
  instrFault_eq_registerIndex_iff.symm.trans (exec_eq_raise_iff hs).symm

/-- Settles O46: the byte is rejected as unknown, and the policy's one check is the advance. -/
theorem skipPolicyAdvancesByOne : Obligations.SkipPolicyAdvancesByOne := by
  intro c s hp hs hk hc
  rw [stepWith_unlisted hs hc (opcodeOf_eq_none.mpr hk), hp, unknownOpcode_skip1]
  exact ⟨fun h => if_pos (by omega), fun h => if_neg (by simp [h])⟩

end Sys2Proof.Machine
end

section
/-! SUPPORT. The ALU: its arithmetic as numbers, the three flag outcomes of a comparison, and a step on the ADD form. -/

namespace Sys2Proof.Machine

/-! ## The results -/

/-- A sum is reduced modulo 256 (R81, R85; D8). -/
theorem toNat_addBytes (x y : Byte) : (addBytes x y).toNat = (x.toNat + y.toNat) % 256 :=
  BitVec.toNat_ofNat _ 8

/-- A product is reduced modulo 256 (R82, R85; D8). -/
theorem toNat_multBytes (x y : Byte) : (multBytes x y).toNat = x.toNat * y.toNat % 256 :=
  BitVec.toNat_ofNat _ 8

/-- A write of the register that is read. -/
theorem setReg_reg_same (s : State) (r : Reg) (v : Byte) : (s.setReg r v).reg r = v := by
  rw [setReg_reg, if_pos rfl]

/-- The ALU's ADD leaves the sum in its first register (R81). -/
theorem toNat_aluAdd_reg (a b : Reg) (s : State) :
    ((aluAdd a b s).reg a).toNat = ((s.reg a).toNat + (s.reg b).toNat) % 256 := by
  rw [aluAdd, setReg_reg_same, toNat_addBytes]

/-- The ALU's ADD writes no other register (R81). -/
theorem aluAdd_reg_ne {a k : Reg} (b : Reg) (s : State) (h : k ≠ a) : (aluAdd a b s).reg k = s.reg k :=
  setReg_reg_ne s _ h

/-! ## The comparison -/

/-- Equal values set E alone (R83, R89). -/
theorem compareFlags_of_eq {x y : Byte} (h : x.toNat = y.toNat) : compareFlags x y = ⟨true, false, false⟩ := by
  simp [compareFlags, BitVec.eq_of_toNat_eq h]

/-- A greater first value sets G alone (R83, R89). -/
theorem compareFlags_of_gt {x y : Byte} (h : y.toNat < x.toNat) : compareFlags x y = ⟨false, true, false⟩ := by
  have hne : x ≠ y := fun e => Nat.ne_of_gt h (congrArg BitVec.toNat e)
  simp [compareFlags, hne, h, Nat.le_of_lt h]

/-- A less first value sets L alone (R83, R89). -/
theorem compareFlags_of_lt {x y : Byte} (h : x.toNat < y.toNat) : compareFlags x y = ⟨false, false, true⟩ := by
  have hne : x ≠ y := fun e => Nat.ne_of_lt h (congrArg BitVec.toNat e)
  simp [compareFlags, hne, h, Nat.le_of_lt h]

/-! ## The ADD form -/

/-- `ADD_OPCODE` before two operand bytes decodes as the ADD form (D18). -/
theorem decodeWith_addOpcode {c : Config} {op : Byte} (hc : c.addOpcode = some op) (h : opcodeOf op = none)
    (a b : Byte) (rest : List Byte) : decodeWith c (op :: a :: b :: rest) = .addForm a b := by
  simp [decodeWith, decode_unknown h, hc]

/-- An instruction of three bytes that ends inside memory is fetched whole (R71, R74). -/
theorem fetchBytes_of_three {s : State} (h : s.pc.toNat + 3 ≤ 256) :
    fetchBytes s = [s.memRead s.pc, s.mem.read (s.pc.toNat + 1), s.mem.read (s.pc.toNat + 2)] := by
  rw [fetchBytes_eq_take]
  exact List.take_of_length_le (Nat.le_sub_of_add_le' h)

/-- A step on `ADD_OPCODE` executes the ADD form on the two bytes after it (D18). -/
theorem stepWith_addOpcode {c : Config} {s : State} (hs : s.status = .running)
    (hc : c.addOpcode = some (s.memRead s.pc)) (h : opcodeOf (s.memRead s.pc) = none) (hp : s.pc.toNat + 3 ≤ 256) :
    stepWith c s = execAddForm (s.mem.read (s.pc.toNat + 1)) (s.mem.read (s.pc.toNat + 2)) s := by
  rw [stepWith, whenRunning_running hs, cycle, fetchBytes_of_three hp, decodeWith_addOpcode hc h]

/-- The ADD form whose checks pass is the ALU's ADD and the advance (D18). -/
theorem execAddForm_ok {a b : Byte} {s : State} (ha : a.toNat < 8) (hb : b.toNat < 8) (hp : s.pc.toNat + 3 < 256) :
    execAddForm a b s =
      .next ((aluAdd ⟨a.toNat, ha⟩ ⟨b.toNat, hb⟩ s).setPc (BitVec.ofNat 8 (s.pc.toNat + 3))) := by
  simp [execAddForm, regIdx_ok ha, regIdx_ok hb, nextPc_ok hp]

end Sys2Proof.Machine
end

section
/-! SUPPORT. Proofs of the statements of 41_alu.md: the ALU as a unit, MULT, CMP and the optional ADD form. -/

namespace Sys2Proof.Machine

/-- Settles O21: the flags are those of the comparison, one outcome for each order of the two values. -/
theorem cmpSetsTheFlagOfTheOrder : Obligations.CmpSetsTheFlagOfTheOrder := by
  intro a b s ha hb hp va vb
  have outcome {f g : Flags} {p : Byte} (h : f = g) (hg : g.pack = p) : f = g ∧ f.pack = p := ⟨h, h ▸ hg⟩
  exact ⟨_, exec_of_effect (i := .cmp a b) ⟨ha, hb, hp, rfl⟩, fun h => outcome (compareFlags_of_eq h) rfl,
    fun h => outcome (compareFlags_of_gt h) rfl, fun h => outcome (compareFlags_of_lt h) rfl,
    rfl, toNat_nextPc hp, rfl, rfl, fun _ => rfl⟩

/-- Settles O47: the byte stands before its two operands, so the step is the ALU's ADD and the advance. -/
theorem addOpcodeAddsRegisters : Obligations.AddOpcodeAddsRegisters := by
  intro c s hs hc hk hp ha hb a b
  refine ⟨_, (stepWith_addOpcode hs hc (opcodeOf_eq_none.mpr hk) (Nat.le_of_lt hp)).trans (execAddForm_ok ha hb hp), ?_⟩
  exact ⟨toNat_aluAdd_reg a b s, fun k => aluAdd_reg_ne b s, toNat_nextPc hp, rfl, rfl, rfl, rfl⟩

/-- Settles O20: the effect writes the product to the register of operand 1, and its written column lists no other. -/
theorem multWritesTheProduct : Obligations.MultWritesTheProduct := by
  intro a b s ha hb hp
  have he : Effect settings (.mult a b) s _ := ⟨ha, hb, hp, rfl⟩
  refine ⟨_, exec_of_effect he, ?_, fun k hk => effect_reg he hk.symm, toNat_nextPc hp, rfl, rfl, rfl, fun _ => rfl⟩
  rw [setPc_reg, setReg_reg_same, aluMult, toNat_multBytes]

/-- Settles O43: MULT hands back the reduced product, ADD writes the reduced sum to its first register alone. -/
theorem aluArithmeticWrapsSilently : Obligations.AluArithmeticWrapsSilently := fun a b s =>
  ⟨⟨aluMult a b s, rfl, toNat_multBytes _ _⟩,
    aluAdd a b s, rfl, toNat_aluAdd_reg a b s, fun _ => aluAdd_reg_ne b s, rfl, rfl, rfl, rfl, rfl⟩

/-- Settles O44: each flag of a comparison decides its own order, and no other operation name has a result. -/
theorem aluComparesAndRejectsOtherNames : Obligations.AluComparesAndRejectsOtherNames := fun a b s =>
  ⟨⟨compareFlags (s.reg a) (s.reg b), rfl, beq_iff_eq, decide_eq_true_iff, decide_eq_true_iff⟩, rfl⟩

end Sys2Proof.Machine
end

section
/-! SUPPORT. Proofs of the statements of 42_ldi_prn.md: LDI, PRN, and what a run adds to the output trace. -/

namespace Sys2Proof.Machine

/-- A step appends at most one byte to the trace, PRN's (R92). -/
theorem StepOutcome.out_grows {c : Config} {s t : State} (h : StepOutcome c s t) :
    ∃ e : List Byte, e.length ≤ 1 ∧ t.out = s.out ++ e := by
  have unchanged {u : State} (hu : u.out = s.out) : ∃ e : List Byte, e.length ≤ 1 ∧ u.out = s.out ++ e :=
    ⟨[], Nat.zero_le 1, by rw [hu, List.append_nil]⟩
  cases h with
  | raised | added | skipped => exact unchanged rfl
  | executed i t _ he =>
    rcases (effect_frame he).out with hout | ⟨r, -, hr, hout⟩
    · exact unchanged hout
    · exact ⟨[s.reg ⟨r.toNat, hr⟩], Nat.le_refl 1, hout⟩

/-- Settles O37, by induction on the fuel: the first step's byte, if any, stands before those of the rest of the run. -/
theorem outputOnlyGrowsOverARun : Obligations.OutputOnlyGrowsOverARun := by
  intro c k
  induction k with
  | zero => exact fun s => ⟨[], Nat.le_refl 0, (List.append_nil s.out).symm⟩
  | succ k ih =>
    intro s
    have ended : ∃ e : List Byte, e.length ≤ k + 1 ∧ s.out = s.out ++ e :=
      ⟨[], Nat.zero_le _, (List.append_nil s.out).symm⟩
    simp only [runWith]
    split
    · next t h =>
      obtain ⟨e₁, hlen₁, hstep⟩ := (stepWith_inv h).2.out_grows
      obtain ⟨e₂, hlen₂, hrest⟩ := ih t
      refine ⟨e₁ ++ e₂, ?_, by rw [hrest, hstep, List.append_assoc]⟩
      rw [List.length_append]
      omega
    · exact ended
    · exact ended

/-- Settles O18: LDI's effect is one register write and the advance. -/
theorem ldiWritesTheLiteral : Obligations.LdiWritesTheLiteral := by
  intro d v s hd hp
  refine ⟨_, exec_of_effect (i := .ldi d v) ⟨hd, hp, rfl⟩, fun k => ?_, toNat_nextPc hp, rfl, rfl, rfl, fun _ => rfl⟩
  rw [setPc_reg, setReg_reg]
  simp only [Fin.ext_iff]

/-- Settles O19: PRN's effect is one emitted byte and the advance, which as byte arithmetic is `pc + 2`. -/
theorem prnEmitsTheRegister : Obligations.PrnEmitsTheRegister := by
  intro r s hr hp
  have he : Effect settings (.prn r) s _ := ⟨hr, hp, rfl⟩
  rw [exec_of_effect he, ofNat_pc_add]
  rfl

end Sys2Proof.Machine
end

section
/-! SUPPORT. PUSH and POP, said once for every setting: when each completes, and what its effect leaves in every
register, in memory and in the other fields. -/

namespace Sys2Proof.Machine

variable {c : Config} {r : Byte} {s t : State}

/-- The machine's instruction with legal operands raises the fault of its stack guard (R98). -/
theorem exec_stackFault {i : Instr} {f : FaultName} (hw : i.wellFormed = true) (h : stackFault settings i s = some f) :
    exec i s = raise f s := by
  rw [exec_eq_execWith, execWith_stackFault hw h]

/-! ## PUSH -/

theorem exists_effect_push (hr : r.toNat < 8) (hs : s.sp c ≠ 0) (hp : s.pc.toNat + 2 < 256) : ∃ t, Effect c (.push r) s t :=
  effect_of_checks (isRegIndex_iff.mpr hr) (if_neg hs) fun _ => hp

/-- PUSH advances by 2 and leaves the flags, the status and the output (R96). -/
theorem effect_push_frame (he : Effect c (.push r) s t) :
    t.pc.toNat = s.pc.toNat + 2 ∧ t.flags = s.flags ∧ t.status = s.status ∧ t.out = s.out := by
  obtain ⟨-, -, hp, rfl⟩ := he
  exact ⟨toNat_nextPc hp, rfl, rfl, rfl⟩

/-- The cell PUSH writes holds the operand register, read after the decrement (R96; D13). -/
theorem effect_push_read_pushAddress (he : Effect c (.push r) s t) (hr : r.toNat < 8) :
    t.mem.read (pushAddress c s).toNat = if r.toNat = c.spIndex.val then s.sp c - 1 else s.reg ⟨r.toNat, hr⟩ := by
  obtain ⟨_, hread⟩ := effect_push_read he
  rw [hread, if_pos rfl, effect_push_reg he]
  simp only [Fin.ext_iff]

theorem effect_push_read_ne (he : Effect c (.push r) s t) {a : Nat} (ha : a ≠ (pushAddress c s).toNat) :
    t.mem.read a = s.mem.read a := by
  obtain ⟨_, hread⟩ := effect_push_read he
  rw [hread, if_neg ha]

theorem effect_push_sp (he : Effect c (.push r) s t) : t.sp c = s.sp c - 1 :=
  (effect_push_reg he c.spIndex).trans (if_pos rfl)

/-- After a PUSH the top of the stack is the cell it wrote (R95). -/
theorem effect_push_stackTop (he : Effect c (.push r) s t) (hr : r.toNat < 8) :
    stackTop c t = if r.toNat = c.spIndex.val then s.sp c - 1 else s.reg ⟨r.toNat, hr⟩ := by
  rw [stackTop, effect_push_sp he]
  exact effect_push_read_pushAddress he hr

/-! ## POP -/

/-- The byte that POP increments into the pointer, and that its guard looks at: R97's `base` (D13). -/
def popBase (c : Config) (r : Byte) (s : State) : Byte := if r.toNat = c.spIndex.val then stackTop c s else s.sp c

theorem popBase_self (h : r.toNat = c.spIndex.val) : popBase c r s = stackTop c s := if_pos h

theorem popBase_of_ne (h : r.toNat ≠ c.spIndex.val) : popBase c r s = s.sp c := if_neg h

theorem exists_effect_pop (hr : r.toNat < 8) (hs : popBase c r s ≠ 255) (hp : s.pc.toNat + 2 < 256) :
    ∃ t, Effect c (.pop r) s t :=
  effect_of_checks (isRegIndex_iff.mpr hr) (if_neg hs) fun _ => hp

theorem stackFault_pop (h : popBase c r s = 255) : stackFault c (.pop r) s = some .stackUnderflow := if_pos h

/-- POP leaves the incremented base in the pointer, else the top byte in its operand register (R97). -/
theorem effect_pop_reg (he : Effect c (.pop r) s t) (k : Reg) : t.reg k =
    if k = c.spIndex then popBase c r s + 1 else if k.val = r.toNat then stackTop c s else s.reg k := by
  obtain ⟨hr, -, -, rfl⟩ := he
  rw [setPc_reg, setSp_reg, setReg_reg, setReg_stackTop_sp]
  simp only [Fin.ext_iff, popBase]

/-- POP advances by 2 and leaves the flags, the status, the output and every cell (R97). -/
theorem effect_pop_frame (he : Effect c (.pop r) s t) : t.pc.toNat = s.pc.toNat + 2 ∧ t.flags = s.flags ∧
    t.status = s.status ∧ t.out = s.out ∧ ∀ a : Nat, t.mem.read a = s.mem.read a := by
  obtain ⟨-, -, hp, rfl⟩ := he
  exact ⟨toNat_nextPc hp, rfl, rfl, rfl, fun _ => rfl⟩

/-! ## POP after PUSH -/

/-- After a PUSH of `r`, the base of a POP of `r` is the decremented pointer: for the pointer itself it was pushed. -/
theorem effect_push_popBase (he : Effect c (.push r) s t) (hr : r.toNat < 8) : popBase c r t = s.sp c - 1 := by
  by_cases h : r.toNat = c.spIndex.val
  · rw [popBase_self h, effect_push_stackTop he hr, if_pos h]
  · rw [popBase_of_ne h, effect_push_sp he]

/-- The POP gives every register back (R99): the pointer was decremented and incremented, the operand register reads the
byte that the PUSH wrote, and no other register was written. -/
theorem effect_push_pop_reg {u : State} (hpush : Effect c (.push r) s t) (hpop : Effect c (.pop r) t u) (hr : r.toNat < 8)
    (k : Reg) : u.reg k = s.reg k := by
  rw [effect_pop_reg hpop]
  by_cases hsp : k = c.spIndex
  · rw [if_pos hsp, effect_push_popBase hpush hr, hsp, BitVec.sub_add_cancel, sp_eq_reg]
  · rw [if_neg hsp]
    by_cases hk : k.val = r.toNat
    · have hne : r.toNat ≠ c.spIndex.val := fun e => hsp (Fin.ext (hk.trans e))
      rw [if_pos hk, effect_push_stackTop hpush hr, if_neg hne]
      exact congrArg s.reg (Fin.ext hk.symm)
    · rw [if_neg hk, effect_push_reg hpush, if_neg hsp]

end Sys2Proof.Machine
end

section
/-! SUPPORT. Proofs of the statements of 43_stack.md: PUSH, POP, the guards of the stack pointer, and the round trip. -/

namespace Sys2Proof.Machine

/-- Settles O41: the POP's guard passes, its base being the pointer that the PUSH decremented. -/
theorem pushThenPopRoundTrips : Obligations.PushThenPopRoundTrips := by
  intro c r s hr hs hp
  obtain ⟨t, hpush⟩ := exists_effect_push hr hs (by omega)
  obtain ⟨hpc, hflags, hstatus, hout⟩ := effect_push_frame hpush
  have hbase : popBase c r t ≠ 255 := by
    rw [effect_push_popBase hpush hr]
    exact fun e => hs (BitVec.sub_eq_iff_eq_add.mp e)
  obtain ⟨u, hpop⟩ := exists_effect_pop hr hbase (by omega)
  obtain ⟨hpc', hflags', hstatus', hout', hread⟩ := effect_pop_frame hpop
  refine ⟨t, u, execWith_of_effect hpush, execWith_of_effect hpop, effect_push_pop_reg hpush hpop hr, by omega,
    hflags'.trans hflags, hstatus'.trans hstatus, hout'.trans hout, fun hne _ => ?_, fun a ha => ?_⟩
  · rw [State.memRead, hread]
    exact (effect_push_read_pushAddress hpush hr).trans (if_neg hne)
  · rw [hread, effect_push_read_ne hpush ha]

/-- Settles O22: PUSH writes the pointer and the cell below it, the operand register being read after the decrement. -/
theorem pushWritesBelowTheStack : Obligations.PushWritesBelowTheStack := by
  intro r s hr hs hp
  obtain ⟨t, he⟩ := exists_effect_push hr hs hp
  exact ⟨t, exec_of_effect he, effect_push_reg he, effect_push_read_pushAddress he hr, fun _ => effect_push_read_ne he,
    toNat_sub_one hs, effect_push_frame he⟩

/-- Settles O23: for an operand other than the pointer, POP's base is the pointer. -/
theorem popLoadsTheTop : Obligations.PopLoadsTheTop := by
  intro r s hr hs hp
  have hbase : popBase settings r s = s.reg 7 := popBase_of_ne (Nat.ne_of_lt hr)
  obtain ⟨t, he⟩ := exists_effect_pop (Nat.lt_succ_of_lt hr) (hbase ▸ hs) hp
  exact ⟨t, exec_of_effect he, fun k => by rw [effect_pop_reg he, hbase]; rfl, effect_pop_frame he⟩

/-- Settles O24: POP 7's base is the loaded byte, which its guard looks at and which ends incremented in the pointer. -/
theorem popIntoTheStackPointer : Obligations.PopIntoTheStackPointer := by
  intro s
  have hbase : popBase settings 7 s = s.memRead (s.reg 7) := popBase_self rfl
  refine ⟨fun hv hp => ?_, fun hv => exec_stackFault rfl (stackFault_pop (hbase.trans hv))⟩
  obtain ⟨t, he⟩ := exists_effect_pop (by decide : (7 : Byte).toNat < 8) (hbase ▸ hv) hp
  refine ⟨t, exec_of_effect he, fun k => ?_, effect_pop_frame he⟩
  rw [effect_pop_reg he, hbase, settings_spIndex]
  by_cases h7 : k = 7
  · rw [if_pos h7, if_pos h7]
  · rw [if_neg h7, if_neg h7]
    exact if_neg fun e => h7 (Fin.ext e)

/-- Settles O29: each guard stands before the pc check, so the fault it names is raised whatever the pc. -/
theorem stackBoundsAreGuarded : Obligations.StackBoundsAreGuarded := by
  intro r s hr
  have hw : isRegIndex r = true := isRegIndex_iff.mpr hr
  refine ⟨fun h0 => ⟨?_, ?_⟩, fun h255 => ⟨?_, fun h7 => ?_⟩⟩
  · exact exec_stackFault hw (if_pos h0)
  · exact exec_stackFault hw (if_pos h0)
  · exact exec_stackFault rfl (if_pos h255)
  · exact exec_stackFault hw (stackFault_pop ((popBase_of_ne h7).trans h255))

end Sys2Proof.Machine
end

section
/-! SUPPORT. CALL and RET, said once for every setting: when each completes, and what its effect leaves in every
register, in memory and in the other fields. -/

namespace Sys2Proof.Machine

variable {c : Config} {r : Byte} {s t : State}

/-! ## CALL -/

theorem exists_effect_call (hr : r.toNat < 8) (hs : s.sp c ≠ 0) (hp : s.pc.toNat + 2 < 256) : ∃ t, Effect c (.call r) s t :=
  effect_of_checks (isRegIndex_iff.mpr hr) (if_neg hs) fun _ => hp

/-- CALL leaves the decremented pointer in the pointer, and every other register as it was (R100). -/
theorem effect_call_reg (he : Effect c (.call r) s t) (k : Reg) :
    t.reg k = if k = c.spIndex then s.sp c - 1 else s.reg k := by
  obtain ⟨h, -, -, rfl⟩ := he
  exact setSp_reg s _ c k

theorem effect_call_sp (he : Effect c (.call r) s t) : t.sp c = s.sp c - 1 :=
  (effect_call_reg he c.spIndex).trans (if_pos rfl)

/-- CALL leaves the flags, the status and the output (R100). -/
theorem effect_call_frame (he : Effect c (.call r) s t) : t.flags = s.flags ∧ t.status = s.status ∧ t.out = s.out := by
  obtain ⟨h, -, -, rfl⟩ := he
  exact ⟨rfl, rfl, rfl⟩

/-- CALL takes its target from the operand register as the push leaves it (R100; D13). -/
theorem effect_call_pc (he : Effect c (.call r) s t) (hr : r.toNat < 8) :
    t.pc = if r.toNat = c.spIndex.val then s.sp c - 1 else s.reg ⟨r.toNat, hr⟩ := by
  have hpc : t.pc = t.reg ⟨r.toNat, hr⟩ := by obtain ⟨_, -, -, rfl⟩ := he; rfl
  rw [hpc, effect_call_reg he]
  simp only [Fin.ext_iff]

/-- The return address that CALL pushes is the number `pc + 2`: its check is that this does not wrap (R100; D6). -/
theorem effect_call_read_pushAddress (he : Effect c (.call r) s t) :
    (t.mem.read (pushAddress c s).toNat).toNat = s.pc.toNat + 2 := by
  have hp : s.pc.toNat + 2 < 256 := by obtain ⟨_, -, hp, -⟩ := he; exact hp
  rw [effect_call_read he, if_pos rfl]
  exact (congrArg BitVec.toNat (ofNat_pc_add 2 s)).symm.trans (toNat_nextPc hp)

theorem effect_call_read_ne (he : Effect c (.call r) s t) {a : Nat} (ha : a ≠ (pushAddress c s).toNat) :
    t.mem.read a = s.mem.read a := by
  rw [effect_call_read he, if_neg ha]

/-- After a CALL the top of the stack is the return address (R100). -/
theorem effect_call_stackTop (he : Effect c (.call r) s t) : (stackTop c t).toNat = s.pc.toNat + 2 := by
  rw [stackTop, effect_call_sp he]
  exact effect_call_read_pushAddress he

/-! ## RET -/

theorem exists_effect_ret (hs : s.sp c ≠ 255) : ∃ t, Effect c .ret s t := ⟨_, hs, rfl⟩

/-- RET leaves the incremented pointer in the pointer, and every other register as it was (R101). -/
theorem effect_ret_reg (he : Effect c .ret s t) (k : Reg) : t.reg k = if k = c.spIndex then s.sp c + 1 else s.reg k := by
  obtain ⟨-, rfl⟩ := he
  exact setSp_reg s _ c k

theorem effect_ret_sp (he : Effect c .ret s t) : t.sp c = s.sp c + 1 :=
  (effect_ret_reg he c.spIndex).trans (if_pos rfl)

/-- RET takes the pc from the top of the stack, and leaves the flags, the status, the output and memory (R101; D2). -/
theorem effect_ret_frame (he : Effect c .ret s t) :
    t.pc = stackTop c s ∧ t.flags = s.flags ∧ t.status = s.status ∧ t.out = s.out ∧ t.mem = s.mem := by
  obtain ⟨-, rfl⟩ := he
  exact ⟨rfl, rfl, rfl, rfl, rfl⟩

end Sys2Proof.Machine
end

section
/-! SUPPORT. Proofs of the statements of 44_call_ret.md: CALL, RET, and the return to the instruction after the CALL. -/

namespace Sys2Proof.Machine

/-- Settles O42: RET's guard passes, the pointer being the one that the CALL decremented, and the cell it pops is the one
that the CALL wrote. -/
theorem callThenRetResumes : Obligations.CallThenRetResumes := by
  intro c r s hr hs hp
  obtain ⟨t, hcall⟩ := exists_effect_call hr hs hp
  refine ⟨t, execWith_of_effect hcall, fun k hk => (effect_call_reg hcall k).trans (if_neg hk),
    (effect_call_frame hcall).1, fun u hsp htop => ?_⟩
  have hu : u.sp c = s.sp c - 1 := hsp.trans (effect_call_sp hcall)
  have hguard : u.sp c ≠ 255 := fun e => hs (BitVec.sub_eq_iff_eq_add.mp (hu.symm.trans e))
  have hsame : stackTop c u = stackTop c t := by rw [stackTop, hsp, htop, stackTop]
  obtain ⟨v, hret⟩ := exists_effect_ret hguard
  obtain ⟨hpc, hflags, -, -, hmem⟩ := effect_ret_frame hret
  refine ⟨v, execWith_of_effect hret, ?_, ?_, fun k hk => (effect_ret_reg hret k).trans (if_neg hk), hflags, hmem⟩
  · rw [hpc, hsame, effect_call_stackTop hcall]
  · rw [effect_ret_sp hret, hu, BitVec.sub_add_cancel]

/-- Settles O25: CALL writes the pointer, the cell below it and the pc, the operand register being read after the push. -/
theorem callPushesTheReturnAddress : Obligations.CallPushesTheReturnAddress := by
  intro r s hr hs hp
  obtain ⟨t, he⟩ := exists_effect_call hr hs hp
  exact ⟨t, exec_of_effect he, effect_call_reg he, effect_call_read_pushAddress he, fun _ => effect_call_read_ne he,
    toNat_sub_one hs, effect_call_pc he hr, effect_call_frame he⟩

/-- Settles O26: RET writes the pointer and the pc, and memory is the same. -/
theorem retPopsTheProgramCounter : Obligations.RetPopsTheProgramCounter := by
  intro s hs
  obtain ⟨t, he⟩ := exists_effect_ret (c := settings) hs
  obtain ⟨hpc, hflags, hstatus, hout, hmem⟩ := effect_ret_frame he
  exact ⟨t, exec_of_effect he, hpc, effect_ret_reg he, hflags, hstatus, hout, fun a => by rw [hmem]⟩

end Sys2Proof.Machine
end

section
/-! SUPPORT. Proof of the statement of 45_jumps.md: JMP, JEQ and JNE, taken and not taken. -/

namespace Sys2Proof.Machine

/-- Settles O27: a jump's effect is one write of the pc, with the register when E decides for it and else with the advance,
which as byte arithmetic is `pc + 2`. -/
theorem jumpsGoToTheRegister : Obligations.JumpsGoToTheRegister := by
  intro r s hr
  have hnext : { s with pc := s.pc + 2 } = s.setPc (BitVec.ofNat 8 (s.pc.toNat + 2)) :=
    congrArg s.setPc (ofNat_pc_add 2 s).symm
  refine ⟨exec_of_effect (i := .jmp r) ⟨hr, rfl⟩, fun hE => ⟨?_, fun hp => ?_⟩, fun hE => ⟨?_, fun hp => ?_⟩⟩
  · exact exec_of_effect (i := .jeq r) ⟨hr, .inl ⟨hE, rfl⟩⟩
  · exact exec_of_effect (i := .jne r) ⟨hr, .inr ⟨hE, hp, hnext⟩⟩
  · exact exec_of_effect (i := .jne r) ⟨hr, .inl ⟨hE, rfl⟩⟩
  · exact exec_of_effect (i := .jeq r) ⟨hr, .inr ⟨hE, hp, hnext⟩⟩

end Sys2Proof.Machine
end

section
/-! SUPPORT. Proofs of the statements of 46_halt.md: HLT, and a run that has ended. -/

namespace Sys2Proof.Machine

theorem runWith_succ_of_next {c : Config} {s t : State} (h : stepWith c s = .next t) (k : Nat) :
    runWith c (k + 1) s = runWith c k t := by
  rw [runWith, h]

/-- A run of `k + j` steps is a run of `j` steps from the end of one of `k`: a running machine always has a next step, and an
ended one no longer moves. -/
theorem runWith_add (c : Config) (k j : Nat) (s : State) : runWith c (k + j) s = runWith c j (runWith c k s) := by
  induction k generalizing s with
  | zero => rw [Nat.zero_add, runWith]
  | succ k ih =>
    by_cases hs : s.status = .running
    · obtain ⟨t, ht, -⟩ := stepWith_cases c hs
      rw [Nat.succ_add, runWith_succ_of_next ht, runWith_succ_of_next ht, ih]
    · simp only [runWith_ended hs]

theorem ended_iff (s : State) : s.ended = true ↔ s.status ≠ .running := bne_iff_ne

/-- Settles O52: the `j` further steps start where the run of `k` steps ended, and from there no step exists. -/
theorem endedRunsStayEnded : Obligations.EndedRunsStayEnded := by
  intro c k j s h
  rw [runWith_add, runWith_ended ((ended_iff _).mp h)]

/-- Settles O17: HLT's one check is the advance, whose value as byte arithmetic is `pc + 1`. -/
theorem hltAdvancesAndHalts : Obligations.HltAdvancesAndHalts := by
  intro s hp
  have hnext : { s with pc := s.pc + 1, status := .halted } =
      (s.setPc (BitVec.ofNat 8 (s.pc.toNat + 1))).setStatus .halted :=
    congrArg (fun pc => (s.setPc pc).setStatus .halted) (ofNat_pc_add 1 s).symm
  exact exec_of_effect (i := .hlt) ⟨hp, hnext⟩

end Sys2Proof.Machine
end

section
/-! SUPPORT. Which faults a step can raise: a chain of checks as a triple of what it answers when it passes and the faults
that it names when it does not. -/

namespace Sys2Proof.Machine

/-! ## A chain of checks -/

/-- The faults of the checks of an instruction: addresses, register indices and the two ends of the stack (R122 to R125). -/
def FaultName.ofCheck : FaultName → Bool
  | .addressOutOfRange | .registerIndexOutOfRange | .stackOverflow | .stackUnderflow => true
  | .illegalInstruction | .unsupportedOperation | .programTooLarge => false

/-- `x` answers a value with `Q`, or names a fault of a check. -/
def Passes {α : Type} (Q : α → Prop) : Checked α → Prop
  | .ok a => Q a
  | .error f => f.ofCheck = true

theorem Passes.bind {α β : Type} {P : α → Prop} {Q : β → Prop} {x : Checked α} {k : α → Checked β} (hx : Passes P x)
    (hk : ∀ a, P a → Passes Q (k a)) : Passes Q (x >>= k) := by
  cases x with
  | ok a => exact hk a hx
  | error f => exact hx

theorem Passes.of_pure {α : Type} {Q : α → Prop} {a : α} (h : Q a) : Passes Q (pure a) := h

theorem passes_regIdx (i : Byte) : Passes (fun _ => True) (regIdx i) := by
  unfold regIdx
  split
  · exact trivial
  · rfl

theorem passes_nextPc (w : Nat) (s : State) : Passes (fun _ => True) (nextPc w s) := by
  unfold nextPc
  split
  · exact trivial
  · rfl

theorem passes_decrementSp (c : Config) (s : State) : Passes (·.status = s.status) (decrementSp c s) := by
  unfold decrementSp
  split
  · rfl
  · exact setSp_status s _ c

theorem passes_incrementSp (c : Config) (s : State) : Passes (·.status = s.status) (incrementSp c s) := by
  unfold incrementSp
  split
  · rfl
  · exact setSp_status s _ c

/-! ## The handlers -/

/-- A status that no fault wrote: the old one, or HLT's. -/
def KeepsOrHalts (s t : State) : Prop := t.status = s.status ∨ t.status = .halted

/-- The result `r` is that of a chain of checks on `s`, closed by `commit`. -/
def IsChecked (s : State) (r : Result) : Prop := ∃ x, r = commit s x ∧ Passes (KeepsOrHalts s) x

/-- One register operand, and then the advance. -/
theorem passes_regIdx_nextPc {w : Nat} {i : Byte} {s : State} {upd : Reg → State} (h : ∀ r, (upd r).status = s.status) :
    Passes (KeepsOrHalts s) (do
      let r ← regIdx i
      let t ← nextPc w s
      return (upd r).setPc t) :=
  (passes_regIdx i).bind fun r _ => (passes_nextPc w s).bind fun _ _ => .of_pure (.inl (h r))

/-- Two register operands, and then the advance. -/
theorem passes_regIdx_regIdx_nextPc {w : Nat} {i j : Byte} {s : State} {upd : Reg → Reg → State}
    (h : ∀ q r, (upd q r).status = s.status) :
    Passes (KeepsOrHalts s) (do
      let q ← regIdx i
      let r ← regIdx j
      let t ← nextPc w s
      return (upd q r).setPc t) :=
  (passes_regIdx i).bind fun q _ => passes_regIdx_nextPc (h q)

theorem isChecked_jumpIf (taken : Bool) (r : Byte) (s : State) : IsChecked s (jumpIf taken r s) := by
  refine ⟨_, rfl, (passes_regIdx r).bind fun q _ => ?_⟩
  cases taken with
  | true => exact .of_pure (.inl rfl)
  | false => exact (passes_nextPc 2 s).bind fun _ _ => .of_pure (.inl rfl)

theorem isChecked_execAddForm (a b : Byte) (s : State) : IsChecked s (execAddForm a b s) :=
  ⟨_, rfl, passes_regIdx_regIdx_nextPc fun _ _ => rfl⟩

theorem isChecked_execWith (c : Config) (i : Instr) (s : State) : IsChecked s (execWith c i s) := by
  cases i with
  | hlt => exact ⟨_, rfl, (passes_nextPc 1 s).bind fun _ _ => .of_pure (.inr rfl)⟩
  | ret => exact ⟨_, rfl, (passes_incrementSp c s).bind fun _ hu => .of_pure (.inl hu)⟩
  | push r | call r =>
    exact ⟨_, rfl, (passes_regIdx r).bind fun _ _ => (passes_decrementSp c s).bind fun _ hu =>
      (passes_nextPc 2 s).bind fun _ _ => .of_pure (.inl hu)⟩
  | pop r =>
    exact ⟨_, rfl, (passes_regIdx r).bind fun _ _ => (passes_incrementSp c _).bind fun _ hu =>
      (passes_nextPc 2 s).bind fun _ _ => .of_pure (.inl hu)⟩
  | jmp r | jeq r | jne r => exact isChecked_jumpIf _ r s
  | prn | ldi => exact ⟨_, rfl, passes_regIdx_nextPc fun _ => rfl⟩
  | mult | cmp => exact ⟨_, rfl, passes_regIdx_regIdx_nextPc fun _ _ => rfl⟩

/-- From Running, a chain of checks that ends in a faulted state named a fault of a check. -/
theorem IsChecked.ofCheck {s t : State} {r : Result} {f : FaultName} (hr : IsChecked s r) (hs : s.status = .running)
    (ht : r = .next t) (hf : t.status = .faulted f) : f.ofCheck = true := by
  obtain ⟨x, rfl, hx⟩ := hr
  cases x with
  | ok u =>
    obtain rfl : u = t := Host.Outcome.next.inj ht
    rcases hx with e | e
    · cases hs.symm.trans (e.symm.trans hf)
    · cases e.symm.trans hf
  | error g =>
    obtain rfl : s.setStatus (.faulted g) = t := Host.Outcome.next.inj ht
    obtain rfl : g = f := Status.faulted.inj hf
    exact hx

/-! ## The step -/

/-- A byte that holds no instruction raises `IllegalInstruction` under the policy `fault`, and else meets a check. -/
theorem execRejected_cases (c : Config) (r : Reject) (s : State) :
    c.unknownOpcode = .fault ∧ execRejected c r s = raise .illegalInstruction s ∨ IsChecked s (execRejected c r s) := by
  cases r with
  | noByte | operandMissing => exact .inr ⟨.error .addressOutOfRange, rfl, rfl⟩
  | unknownOpcode op =>
    rw [execRejected]
    cases c.unknownOpcode with
    | fault => exact .inl ⟨rfl, rfl⟩
    | skip1 => exact .inr ⟨_, rfl, (passes_nextPc 1 s).bind fun _ _ => .of_pure (.inl rfl)⟩

/-- A step from Running raises `IllegalInstruction` under the policy `fault`, or what it answers went through checks. -/
theorem stepWith_illegal_or_checked (c : Config) {s : State} (hs : s.status = .running) :
    c.unknownOpcode = .fault ∧ stepWith c s = raise .illegalInstruction s ∨ IsChecked s (stepWith c s) := by
  rw [stepWith, whenRunning_running hs, cycle]
  cases decodeWith c (fetchBytes s) with
  | instr i => exact .inr (isChecked_execWith c i s)
  | addForm a b => exact .inr (isChecked_execAddForm a b s)
  | rejected r => exact execRejected_cases c r s

/-- The fault of a step is that of a check, or `IllegalInstruction` under the policy `fault` (R120 to R125). -/
theorem stepWith_faultName {c : Config} {s t : State} {f : FaultName} (h : stepWith c s = .next t)
    (hf : t.status = .faulted f) : f.ofCheck = true ∨ f = .illegalInstruction ∧ c.unknownOpcode = .fault := by
  have hs : s.status = .running := (stepWith_inv h).1
  rcases stepWith_illegal_or_checked c hs with ⟨hc, e⟩ | hr
  · obtain rfl : s.setStatus (.faulted .illegalInstruction) = t := Host.Outcome.next.inj (e.symm.trans h)
    exact .inr ⟨(Status.faulted.inj hf).symm, hc⟩
  · exact .inl (hr.ofCheck hs h hf)

/-- From Running the one outcome that is a faulted state is fault entry (R127, R77). -/
theorem StepOutcome.eq_of_faulted {c : Config} {s t : State} {f : FaultName} (h : StepOutcome c s t)
    (hs : s.status = .running) (hf : t.status = .faulted f) : t = s.setStatus (.faulted f) := by
  cases h with
  | raised g => rw [Status.faulted.inj hf]
  | executed i t _ he => rcases effect_status he hs with e | e <;> cases e.symm.trans hf
  | added | skipped => cases hs.symm.trans hf

end Sys2Proof.Machine
end

section
/-! SUPPORT. Proofs of the statements of 60_exceptions.md: what a fault leaves, and the faults that no instruction raises. -/

namespace Sys2Proof.Machine

/-- Settles O14: the outcome is fault entry, and a faulted state has no step. -/
theorem faultsArePreciseAndFinal : Obligations.FaultsArePreciseAndFinal := by
  intro c s t f h hf
  obtain ⟨hs, ho⟩ := stepWith_inv h
  exact ⟨ho.eq_of_faulted hs hf, stepWith_faulted hf⟩

/-- Settles O16: the three names are not those of a check, and `IllegalInstruction` is raised under `fault` alone. -/
theorem faultsNoInstructionRaises : Obligations.FaultsNoInstructionRaises := by
  refine fun c s t h => ⟨fun hf => ?_, fun hf => ?_, fun hc hf => ?_⟩
  · rcases stepWith_faultName h hf with e | ⟨e, -⟩ <;> cases e
  · rcases stepWith_faultName h hf with e | ⟨e, -⟩ <;> cases e
  · rcases stepWith_faultName h hf with e | ⟨-, e⟩
    · cases e
    · cases hc.symm.trans e

end Sys2Proof.Machine
end

section
/-! SUPPORT. Proofs of the statements of 70_reset_and_hazards.md: the launch and its first step, and the host's stop. -/

namespace Sys2Proof.Machine

/-! ## The launch -/

/-- A launch whose program fits is the state after reset with the program in memory (R144). -/
theorem launch_fits {prog : List Byte} (h : prog.length ≤ 256) :
    launch prog = { State.reset with mem := Memory.writeAll [] 0 prog } := load_fits h

/-- A cell after the launch holds the program's byte, or past its end the 0 of reset (R40, R144). -/
theorem launch_read {prog : List Byte} (h : prog.length ≤ 256) (a : Nat) :
    (launch prog).mem.read a = if ha : a < prog.length then prog[a] else 0 := load_read h a

/-- The cells from the pc of a launch on hold the encoding that the program begins with (R40, R144). -/
theorem launch_read_encode {i : Instr} {rest : List Byte} (hl : (encode i ++ rest).length ≤ 256) (k : Nat)
    (hk : k < (encode i).length) :
    (launch (encode i ++ rest)).mem.read ((launch (encode i ++ rest)).pc.toNat + k) = (encode i)[k] := by
  have haddr : (launch (encode i ++ rest)).pc.toNat + k = k := by rw [launch_fits hl]; exact Nat.zero_add k
  have hk' : k < (encode i ++ rest).length := by rw [List.length_append]; omega
  rw [haddr, launch_read hl, dif_pos hk', List.getElem_append_left hk]

/-- Settles O50: the cells from address 0 on hold the encoding, which the first step fetches and executes. -/
theorem launchRunsTheFirstInstruction : Obligations.LaunchRunsTheFirstInstruction := by
  rintro prog rest i rfl hl
  have hlaunch := launch_fits hl
  have hpc : (launch (encode i ++ rest)).pc = 0 := by rw [hlaunch]; rfl
  have hrun : (launch (encode i ++ rest)).status = .running := by rw [hlaunch]; rfl
  have hfit : (launch (encode i ++ rest)).pc.toNat + (encode i).length ≤ 256 := by
    simpa [hpc] using Nat.le_trans (List.sublist_append_left (encode i) rest).length_le hl
  exact ⟨by rw [hlaunch], hpc, by rw [hlaunch]; rfl, hrun, by rw [hlaunch]; rfl, launch_read hl,
    stepRunsTheDecodedInstruction.2 _ i hrun hfit (launch_read_encode hl)⟩

/-! ## The host's stop -/

theorem hostStop_running {s : State} (h : s.status = .running) : hostStop s = s.setStatus .stopped := by
  rw [hostStop, h]

theorem hostStop_ended {s : State} (h : s.status ≠ .running) : hostStop s = s := by
  unfold hostStop
  split
  · next e => exact absurd e h
  all_goals rfl

theorem hostStop_status_ne_running (s : State) : (hostStop s).status ≠ .running := by
  by_cases h : s.status = .running
  · rw [hostStop_running h, setStatus_status]
    exact Status.noConfusion
  · rwa [hostStop_ended h]

/-- Settles O51: a stop leaves no machine Running, so that no run goes on from it. -/
theorem hostStopEndsTheRun : Obligations.HostStopEndsTheRun := fun c k s =>
  ⟨hostStop_running, hostStop_ended, hostStop_status_ne_running (runWith c k s),
    runWith_ended (hostStop_status_ne_running s)⟩

end Sys2Proof.Machine
end
